-- ==== Sys2Proof/Word.lean ====
section
/-! DEFINITION. The bit-vector types of RSE: bytes and 32-bit words (spec 00_scope.md R9, R12). -/

namespace Sys2Proof

/-- One byte of `M`, one field element, one polynomial coefficient. -/
abbrev Byte := BitVec 8

/-- A scalar register, a control/status register or a command word (`XLEN = 32`, R9, R70). -/
abbrev Word := BitVec 32

/-- A polynomial value in its stored representation: index 0 is the highest-degree
coefficient (41_polynomial.md R110, 90_conflicts.md C1). -/
abbrev Poly := List Byte

end Sys2Proof
end

