-- ==== Sys2Proof/Syntax.lean ====
section
/-! DEFINITION. The twenty commands of RSE, one constructor per row of spec/opcode_table.json
(30_encoding.md R75), with the operand kinds of R73 and R74. -/

namespace Sys2Proof

/-- A scalar register field: `x0 .. x15` (R73). -/
abbrev XReg := Fin 16

/-- A polynomial register field: `p0 .. p3` (R73; the values 4 to 15 have no term here and are
refused by the decoder, R77 item 4). -/
abbrev PReg := Fin 4

/-- The nine control/status registers, by the names of R80. -/
inductive Csr where
  | status | cause | finfo | fcmd | tbase | nblk | dbase | ebase | obase
  deriving DecidableEq, Repr

/-- A command. Operands stand in the order of the fields `a, b, c, d`, then `imm` (R75). -/
inductive Instr where
  /-- `NOP` (R151). -/
  | nop
  /-- `LI xa, imm` (R152). -/
  | li (a : XReg) (imm : BitVec 16)
  /-- `LDB xa, xb` (R153). -/
  | ldb (a b : XReg)
  /-- `STB xa, xb` (R154). -/
  | stb (a b : XReg)
  /-- `CSRR xa, csr` (R155). -/
  | csrr (a : XReg) (csr : Csr)
  /-- `CSRW xa, csr` (R156). -/
  | csrw (a : XReg) (csr : Csr)
  /-- `GEXP xa, xb` (R98). -/
  | gexp (a b : XReg)
  /-- `GLOG xa, xb` (R99). -/
  | glog (a b : XReg)
  /-- `GADD xa, xb, xc` (R100). -/
  | gadd (a b c : XReg)
  /-- `GMUL xa, xb, xc` (R101). -/
  | gmul (a b c : XReg)
  /-- `PLD pa, xb, xc, xd` (R113). -/
  | pld (a : PReg) (b c d : XReg)
  /-- `PST pa, xb` (R114). -/
  | pst (a : PReg) (b : XReg)
  /-- `PLEN xa, pb` (R115). -/
  | plen (a : XReg) (b : PReg)
  /-- `PIDX xa, pb, xc` (R116). -/
  | pidx (a : XReg) (b : PReg) (c : XReg)
  /-- `PMUL pa, pb, pc` (R118). -/
  | pmul (a b c : PReg)
  /-- `PMOD pa, pb, pc` (R120). -/
  | pmod (a b c : PReg)
  /-- `PGEN pa, xb` (R122). -/
  | pgen (a : PReg) (b : XReg)
  /-- `ECC1 xa, xb, xc, xd` (R133). -/
  | ecc1 (a b c d : XReg)
  /-- `ECCB` (R136). -/
  | eccb
  /-- `ILV xa` (R139). -/
  | ilv (a : XReg)
  deriving DecidableEq, Repr

end Sys2Proof
end

