-- ==== Sys2Proof/WellFormed.lean ====
section
/-! DEFINITION. Which terms of `Instr` are commands of RSE. The types of the fields leave one check:
the access column of the CSR table (10_state.md R26, 30_encoding.md R77 item 5). -/

namespace Sys2Proof

/-- The access column of R26: CSRs 4 to 8 are read-write, 0 to 3 read-only. -/
def Csr.writable : Csr → Bool
  | .status | .cause | .finfo | .fcmd => false
  | .tbase | .nblk | .dbase | .ebase | .obase => true

/-- A command some word decodes to: everything but a `CSRW` of a read-only CSR (R26, R77). -/
def Instr.wellFormed : Instr → Bool
  | .csrw _ csr => csr.writable
  | .nop | .li _ _ | .ldb _ _ | .stb _ _ | .csrr _ _ => true
  | .gexp _ _ | .glog _ _ | .gadd _ _ _ | .gmul _ _ _ => true
  | .pld _ _ _ _ | .pst _ _ | .plen _ _ | .pidx _ _ _ | .pmul _ _ _ | .pmod _ _ _ | .pgen _ _ => true
  | .ecc1 _ _ _ _ | .eccb | .ilv _ => true

end Sys2Proof
end

