-- ==== Sys2Proof/Decode.lean ====
section
/-! DEFINITION. The command decoder and encoder (30_encoding.md R70 to R77). The decoder is total:
every 32-bit word is one command or is refused by name (R76). -/

namespace Sys2Proof

/-- Why a word is an illegal command: the five items of R77. All five raise the same
`IllegalCommand` (60_exceptions.md R161), so which item is named first is not observable (log 7). -/
inductive Illegal where
  /-- Item 1: `op` is none of the twenty values. -/
  | reservedOpcode
  /-- Item 2: a format R word with `z ≠ 0` or a nonzero unused operand field. -/
  | nonzeroField
  /-- Item 3: a format I word with `zb ≠ 0`. -/
  | nonzeroZb
  /-- Item 4: a polynomial register field holds 4 to 15. -/
  | polyRegister
  /-- Item 5: a CSR number the command may not access. -/
  | csrNumber
  deriving DecidableEq, Repr

/-! The fields of the two formats (R71, R72). -/

def fieldOp (w : Word) : BitVec 8 := w.extractLsb' 24 8
def fieldA (w : Word) : BitVec 4 := w.extractLsb' 20 4
def fieldB (w : Word) : BitVec 4 := w.extractLsb' 16 4
def fieldC (w : Word) : BitVec 4 := w.extractLsb' 12 4
def fieldD (w : Word) : BitVec 4 := w.extractLsb' 8 4
def fieldZ (w : Word) : BitVec 8 := w.extractLsb' 0 8
/-- `zb`, bits 19:16 of a format I word (R72). -/
def fieldZb (w : Word) : BitVec 4 := w.extractLsb' 16 4
def fieldImm (w : Word) : BitVec 16 := w.extractLsb' 0 16

/-- A field of a format R word that must be zero (R71, R77 item 2). -/
def mustBeZero {n : Nat} (v : BitVec n) : Except Illegal Unit :=
  if v = 0 then .ok () else .error .nonzeroField

/-- The `zb` field of a format I word (R72, R77 item 3). -/
def zbMustBeZero (w : Word) : Except Illegal Unit :=
  if fieldZb w = 0 then .ok () else .error .nonzeroZb

/-- A scalar register field: every value names a register (R73). -/
def xregOf (v : BitVec 4) : XReg := v.toFin

/-- A polynomial register field: 0 to 3, else illegal (R73, R77 item 4). -/
def pregOf (v : BitVec 4) : Except Illegal PReg :=
  if h : v.toNat < 4 then .ok ⟨v.toNat, h⟩ else .error .polyRegister

/-- The CSR of a number, where there is one (R26, R80). -/
def csrOfNumber (n : Nat) : Option Csr :=
  match n with
  | 0 => some .status
  | 1 => some .cause
  | 2 => some .finfo
  | 3 => some .fcmd
  | 4 => some .tbase
  | 5 => some .nblk
  | 6 => some .dbase
  | 7 => some .ebase
  | 8 => some .obase
  | _ => none

/-- `CSRR`'s operand: `imm` in 0..8 (R77 item 5). -/
def readableCsr (imm : BitVec 16) : Except Illegal Csr :=
  match csrOfNumber imm.toNat with
  | some c => .ok c
  | none => .error .csrNumber

/-- `CSRW`'s operand: `imm` in 4..8 (R77 item 5). -/
def writableCsr (imm : BitVec 16) : Except Illegal Csr :=
  match csrOfNumber imm.toNat with
  | some c => if c.writable then .ok c else .error .csrNumber
  | none => .error .csrNumber

/-- The opcode map (R75) with the checks of R77. -/
def decode (w : Word) : Except Illegal Instr :=
  let a := fieldA w
  let b := fieldB w
  let c := fieldC w
  let d := fieldD w
  let z := fieldZ w
  match (fieldOp w).toNat with
  | 0x00 => do
    mustBeZero a; mustBeZero b; mustBeZero c; mustBeZero d; mustBeZero z
    .ok .nop
  | 0x01 => do
    zbMustBeZero w
    .ok (.li (xregOf a) (fieldImm w))
  | 0x02 => do
    mustBeZero c; mustBeZero d; mustBeZero z
    .ok (.ldb (xregOf a) (xregOf b))
  | 0x03 => do
    mustBeZero c; mustBeZero d; mustBeZero z
    .ok (.stb (xregOf a) (xregOf b))
  | 0x04 => do
    zbMustBeZero w
    let csr ← readableCsr (fieldImm w)
    .ok (.csrr (xregOf a) csr)
  | 0x05 => do
    zbMustBeZero w
    let csr ← writableCsr (fieldImm w)
    .ok (.csrw (xregOf a) csr)
  | 0x10 => do
    mustBeZero c; mustBeZero d; mustBeZero z
    .ok (.gexp (xregOf a) (xregOf b))
  | 0x11 => do
    mustBeZero c; mustBeZero d; mustBeZero z
    .ok (.glog (xregOf a) (xregOf b))
  | 0x12 => do
    mustBeZero d; mustBeZero z
    .ok (.gadd (xregOf a) (xregOf b) (xregOf c))
  | 0x13 => do
    mustBeZero d; mustBeZero z
    .ok (.gmul (xregOf a) (xregOf b) (xregOf c))
  | 0x20 => do
    mustBeZero z
    let pa ← pregOf a
    .ok (.pld pa (xregOf b) (xregOf c) (xregOf d))
  | 0x21 => do
    mustBeZero c; mustBeZero d; mustBeZero z
    let pa ← pregOf a
    .ok (.pst pa (xregOf b))
  | 0x22 => do
    mustBeZero c; mustBeZero d; mustBeZero z
    let pb ← pregOf b
    .ok (.plen (xregOf a) pb)
  | 0x23 => do
    mustBeZero d; mustBeZero z
    let pb ← pregOf b
    .ok (.pidx (xregOf a) pb (xregOf c))
  | 0x24 => do
    mustBeZero d; mustBeZero z
    let pa ← pregOf a
    let pb ← pregOf b
    let pc ← pregOf c
    .ok (.pmul pa pb pc)
  | 0x25 => do
    mustBeZero d; mustBeZero z
    let pa ← pregOf a
    let pb ← pregOf b
    let pc ← pregOf c
    .ok (.pmod pa pb pc)
  | 0x26 => do
    mustBeZero c; mustBeZero d; mustBeZero z
    let pa ← pregOf a
    .ok (.pgen pa (xregOf b))
  | 0x30 => do
    mustBeZero z
    .ok (.ecc1 (xregOf a) (xregOf b) (xregOf c) (xregOf d))
  | 0x31 => do
    mustBeZero a; mustBeZero b; mustBeZero c; mustBeZero d; mustBeZero z
    .ok .eccb
  | 0x32 => do
    mustBeZero b; mustBeZero c; mustBeZero d; mustBeZero z
    .ok (.ilv (xregOf a))
  | _ => .error .reservedOpcode

/-- The instruction of a row of spec/opcode_table.json laid out as `w` (bit 0 the least significant
bit of the one command word, R12, R70). A number that does not fit the one word is no command. -/
def decodeTableWord (_nbits w : Nat) : Option Instr :=
  if w < 2 ^ 32 then (decode (BitVec.ofNat 32 w)).toOption else none

/-! The encoder, from the same tables. -/

/-- A format R word with `z = 0` (R71). -/
def formatR (op : BitVec 8) (a b c d : BitVec 4) : Word := op ++ a ++ b ++ c ++ d ++ 0#8

/-- A format I word with `zb = 0` (R72). -/
def formatI (op : BitVec 8) (a : BitVec 4) (imm : BitVec 16) : Word := op ++ a ++ 0#4 ++ imm

/-- The field of a scalar register (R73). -/
def xfield (r : XReg) : BitVec 4 := BitVec.ofFin r

/-- The field of a polynomial register (R73). -/
def pfield (r : PReg) : BitVec 4 := BitVec.ofNat 4 r.val

/-- The number of a CSR (R80). -/
def Csr.number : Csr → BitVec 16
  | .status => 0
  | .cause => 1
  | .finfo => 2
  | .fcmd => 3
  | .tbase => 4
  | .nblk => 5
  | .dbase => 6
  | .ebase => 7
  | .obase => 8

/-- The word of a command (R75). -/
def encode : Instr → Word
  | .nop => formatR 0x00 0 0 0 0
  | .li a imm => formatI 0x01 (xfield a) imm
  | .ldb a b => formatR 0x02 (xfield a) (xfield b) 0 0
  | .stb a b => formatR 0x03 (xfield a) (xfield b) 0 0
  | .csrr a csr => formatI 0x04 (xfield a) csr.number
  | .csrw a csr => formatI 0x05 (xfield a) csr.number
  | .gexp a b => formatR 0x10 (xfield a) (xfield b) 0 0
  | .glog a b => formatR 0x11 (xfield a) (xfield b) 0 0
  | .gadd a b c => formatR 0x12 (xfield a) (xfield b) (xfield c) 0
  | .gmul a b c => formatR 0x13 (xfield a) (xfield b) (xfield c) 0
  | .pld a b c d => formatR 0x20 (pfield a) (xfield b) (xfield c) (xfield d)
  | .pst a b => formatR 0x21 (pfield a) (xfield b) 0 0
  | .plen a b => formatR 0x22 (xfield a) (pfield b) 0 0
  | .pidx a b c => formatR 0x23 (xfield a) (pfield b) (xfield c) 0
  | .pmul a b c => formatR 0x24 (pfield a) (pfield b) (pfield c) 0
  | .pmod a b c => formatR 0x25 (pfield a) (pfield b) (pfield c) 0
  | .pgen a b => formatR 0x26 (pfield a) (xfield b) 0 0
  | .ecc1 a b c d => formatR 0x30 (xfield a) (xfield b) (xfield c) (xfield d)
  | .eccb => formatR 0x31 0 0 0 0
  | .ilv a => formatR 0x32 (xfield a) 0 0 0

end Sys2Proof
end

