-- ==== Sys2Proof/Config.lean ====
section
/-! DEFINITION. What an implementation of RSE fixes (00_scope.md section 5) and the one free value
the spec leaves open (20_memory.md R61). -/

namespace Sys2Proof.Config

/-- `PRIM`, the primitive polynomial of the field (R6): `x^8 + x^4 + x^3 + x^2 + 1`. -/
def prim : Nat := 0x11D

/-- `ALPHA`, the element whose powers fill `EXP` (R7, which the spec marks as general knowledge;
log 14, PRESUMED). -/
def alpha : Byte := 0x02

/-- The exponent modulus (R8). -/
def expModulus : Nat := 255

/-- The two open parameters of an implementation (R10, R11). They are plain data that `State`
carries and no step writes (log 4, DESIGN CHOICE). -/
structure Params where
  /-- `LMAX`, the capacity of a polynomial register in coefficients. -/
  lmax : Nat
  /-- `MSIZE`, the size of the local memory in bytes. -/
  msize : Nat
  deriving DecidableEq, Repr

/-- The defaults of R10 and R11, which every vector of 95_test_vectors.md uses. -/
def defaults : Params := { lmax := 256, msize := 8192 }

/-- The constraints R10 and R11 put on the parameters. -/
abbrev Params.valid (c : Params) : Prop := 2 ≤ c.lmax ∧ c.msize ≤ 2 ^ 31

/-- FREE VALUE (R61, 93_implementation_defined.md U4; log 2): the byte that address `addr` of `M`
holds after the `epoch`-th reset until it is first written. No body: nothing can be proved of it
but that it is the same byte on every read. -/
opaque unwrittenByte (epoch addr : Nat) : Byte

end Sys2Proof.Config
end

