-- ==== Sys2Proof/Machine/State.lean ====
section
/-! DEFINITION. The state of RSE (10_state.md) as plain data, its reset value (R37), and the names
of what can stop the model. -/

namespace Sys2Proof.Machine

/-- The six causes of a fault of RSE (60_exceptions.md R161). A fault of RSE is a NEXT state of the
model (R163), not an `Outcome.fault`. -/
inductive Cause where
  | illegalCommand | logOfZero | indexRange | invalidArgument | memRange | capacity
  deriving DecidableEq, Repr

/-- The bytes of `M` written since the last reset, in canonical form: (address, byte) pairs at
strictly rising addresses (20_memory.md R50; log 3). -/
abbrev Memory := List Host.Cell

/-- What an unlisted address holds: no recorded byte. Reading it gives the free value of R61
(`State.readByte`, log 2), which no entry of the list can be equal to. -/
def Memory.unlisted : Option Byte := none

/-- The canonical form: addresses strictly rising, no entry equal to what an unlisted address
holds. -/
abbrev Memory.wf (m : Memory) : Prop :=
  m.Pairwise (fun c d => c.1 < d.1) ∧ ∀ c ∈ m, some c.2 ≠ Memory.unlisted

/-- One action of the host on the ports of R35 (R36, R182; log 1). -/
inductive HostEvent where
  /-- One command word through `cmd`. -/
  | command (w : Word)
  /-- One byte written through `mem`. -/
  | memWrite (addr : Nat) (b : Byte)
  /-- One byte read through `mem` (log 18). -/
  | memRead (addr : Nat)
  /-- A readback through `obs` (log 18). -/
  | observe
  /-- `rst` asserted between commands (R180). -/
  | reset
  /-- `rst` asserted while the command `w` executes: the command is abandoned (R182; log 9). -/
  | resetDuring (w : Word)
  deriving DecidableEq, Repr

/-- The machine's state. -/
structure State where
  /-- `x0 .. x15` (R21). -/
  x : Vector Word 16
  /-- `p0 .. p3`, each the list of its `LEN` coefficients (R22, R23). -/
  p : Vector Poly 4
  /-- CSR 0 `STATUS`: bit 0 is `FAULT` (R27). -/
  status : Word
  /-- CSR 1 `CAUSE`: bits 3:0 are `CODE` (R28). -/
  cause : Word
  /-- CSR 2 `FINFO` (R29). -/
  finfo : Word
  /-- CSR 3 `FCMD` (R30). -/
  fcmd : Word
  /-- CSR 4 `TBASE` (R31). -/
  tbase : Word
  /-- CSR 5 `NBLK` (R31). -/
  nblk : Word
  /-- CSR 6 `DBASE` (R31). -/
  dbase : Word
  /-- CSR 7 `EBASE` (R31). -/
  ebase : Word
  /-- CSR 8 `OBASE` (R31). -/
  obase : Word
  /-- `M`: the bytes written since reset (R34, R61). -/
  mem : Memory
  /-- The parameters `LMAX` and `MSIZE`, which no step writes (R10, R11; log 4). -/
  params : Config.Params
  /-- The MODEL's own field: how many resets have happened; it selects the free values of unwritten
  memory (log 2). -/
  epoch : Nat
  /-- The MODEL's own field: the host's pending actions, oldest first (log 1). -/
  inbox : List HostEvent
  deriving DecidableEq, Repr

/-- The machine right after reset (R37, R180): registers 0, polynomial registers empty, CSRs 0, no
byte of `M` written. The default parameters, the epoch and the empty inbox are the model's
(log 1, log 2, log 4). -/
def State.reset : State where
  x := Vector.replicate 16 0
  p := Vector.replicate 4 []
  status := 0
  cause := 0
  finfo := 0
  fcmd := 0
  tbase := 0
  nblk := 0
  dbase := 0
  ebase := 0
  obase := 0
  mem := []
  params := Config.defaults
  epoch := 0
  inbox := []

/-- What stops the model with a fault. No command of RSE does. -/
inductive Fault where
  /-- Raised by the step when the host's `memRead` or `memWrite` names an address outside
  `0 .. MSIZE-1`, which the memory window of R35 does not have (log 11). Safe: the model stops. -/
  | hostAddress (addr : Nat)
  deriving DecidableEq, Repr

/-- What the model refuses. -/
inductive Refusal where
  /-- Raised by an arm of `exec` for a command that has no meaning yet; no arm does. Safe. -/
  | notModelled (mnemonic : String)
  deriving DecidableEq, Repr

end Sys2Proof.Machine
end

