-- ==== Sys2Proof/Machine/Flags.lean ====
section
/-! DEFINITION. RSE has no condition codes (10_state.md R25); the one status bit is `STATUS.FAULT`
(R27), read and set here and nowhere else. -/

namespace Sys2Proof.Machine

/-- `STATUS.FAULT`, bit 0 of CSR 0 (R27). -/
def State.faulted (s : State) : Bool := s.status.getLsbD 0

/-- `csr[STATUS].FAULT <- 1` (R163): bit 0 set, the other bits as they are. -/
def setFaultBit (status : Word) : Word := status ||| 1

end Sys2Proof.Machine
end

