-- ==== Sys2Proof/Machine/Ops.lean ====
section
/-! DEFINITION. The named operations over registers and memory (00_scope.md R13, 20_memory.md), fault
entry (60_exceptions.md R163) and reset (70_reset_and_hazards.md R180). -/

namespace Sys2Proof.Machine

/-! Registers. -/

/-- `x[i]` (R13, R21). -/
def State.getX (s : State) (i : XReg) : Word := s.x[i]

/-- `x[i] <- v` (R13). -/
def State.setX (s : State) (i : XReg) (v : Word) : State := { s with x := s.x.set i v }

/-- `p[i]`, as its coefficient sequence (R13, R22). -/
def State.getP (s : State) (i : PReg) : Poly := s.p[i]

/-- `p[i] <- s`: the register is rewritten whole (R13, R22). -/
def State.setP (s : State) (i : PReg) (c : Poly) : State := { s with p := s.p.set i c }

/-- `csr[n]` (R26). -/
def State.getCsr (s : State) : Csr → Word
  | .status => s.status
  | .cause => s.cause
  | .finfo => s.finfo
  | .fcmd => s.fcmd
  | .tbase => s.tbase
  | .nblk => s.nblk
  | .dbase => s.dbase
  | .ebase => s.ebase
  | .obase => s.obase

/-- `csr[n] <- v` for the five read-write CSRs (R26, R31). A read-only CSR keeps its value: only
fault entry and reset write those (R27 to R30). -/
def State.setCsr (s : State) (c : Csr) (v : Word) : State :=
  match c with
  | .status | .cause | .finfo | .fcmd => s
  | .tbase => { s with tbase := v }
  | .nblk => { s with nblk := v }
  | .dbase => { s with dbase := v }
  | .ebase => { s with ebase := v }
  | .obase => { s with obase := v }

/-! Memory. -/

/-- The recorded byte of an address: `Memory.unlisted` where nothing has been written since reset. -/
def memLookup : Memory → Nat → Option Byte
  | [], _ => Memory.unlisted
  | (k, b) :: rest, addr => if k = addr then some b else memLookup rest addr

/-- Record one byte, keeping the addresses strictly rising. -/
def memInsert : Memory → Nat → Byte → Memory
  | [], addr, v => [(addr, v)]
  | (k, b) :: rest, addr, v =>
    if addr < k then (addr, v) :: (k, b) :: rest
    else if addr = k then (addr, v) :: rest
    else (k, b) :: memInsert rest addr v

/-- Record the bytes `bs` at `addr, addr+1, …` (R53). -/
def memInsertAll : Memory → Nat → List Byte → Memory
  | m, _, [] => m
  | m, addr, b :: bs => memInsertAll (memInsert m addr b) (addr + 1) bs

/-- `M[addr]`: the byte last written since reset, else the free value of R61 (log 2). -/
def State.readByte (s : State) (addr : Nat) : Byte :=
  (memLookup s.mem addr).getD (Config.unwrittenByte s.epoch addr)

/-- `MemRead(addr, n)` (R13, R52). -/
def State.memRead (s : State) (addr n : Nat) : List Byte :=
  (List.range n).map fun k => s.readByte (addr + k)

/-- `MemWrite(addr, |bs|, bs)` (R13, R53). -/
def State.memWrite (s : State) (addr : Nat) (bs : List Byte) : State :=
  { s with mem := memInsertAll s.mem addr bs }

/-! Faults. -/

/-- The code of a cause, the value of `CAUSE.CODE` (R161). -/
def Cause.code : Cause → Word
  | .illegalCommand => 1
  | .logOfZero => 2
  | .indexRange => 3
  | .invalidArgument => 4
  | .memRange => 5
  | .capacity => 6

/-- What `raise <Cause>(info)` carries (R13); `info` is an exact number. -/
structure Trap where
  cause : Cause
  info : Nat
  deriving DecidableEq, Repr

/-- Fault entry (R163), the one operation every fault goes through: the four fault registers are
written (`FINFO` keeps the low 32 bits, R29) and nothing else changes. -/
def State.enterFault (s : State) (t : Trap) (w : Word) : State :=
  { s with
    status := setFaultBit s.status
    cause := t.cause.code
    finfo := BitVec.ofNat 32 t.info
    fcmd := w }

/-- `if c then raise t` (R13). -/
def raiseIf (c : Prop) [Decidable c] (t : Trap) : Except Trap Unit :=
  if c then .error t else .ok ()

/-- The range check of R54: `n = 0`, or `addr + n ≤ MSIZE` on unbounded integers. -/
def rangeCheck (s : State) (addr n : Nat) : Except Trap Unit :=
  raiseIf (0 < n ∧ s.params.msize < addr + n) ⟨.memRange, addr⟩

/-- One command word `w` whose effect is `effect`: in the FAULT state it is discarded (R165); else it
completes, or its fault entry is the whole step (R163). -/
def command (w : Word) (s : State) (effect : Except Trap State) : Host.Outcome State Fault Refusal :=
  if s.faulted then .next s
  else
    match effect with
    | .ok s' => .next s'
    | .error t => .next (s.enterFault t w)

/-- A word that is no command raises `IllegalCommand` with information 0 (R77, R161). -/
def execIllegal (w : Word) (s : State) : Host.Outcome State Fault Refusal :=
  command w s (.error ⟨.illegalCommand, 0⟩)

/-! Reset, the only way out of the FAULT state (R166). -/

/-- `rst` (R180): every field as R37 says. Every byte of `M` is unspecified anew, so the epoch moves
on (log 2); the parameters are the implementation's and the inbox is the host's, so both stay. -/
def State.afterReset (s : State) : State :=
  { State.reset with params := s.params, epoch := s.epoch + 1, inbox := s.inbox }

end Sys2Proof.Machine
end

