-- ==== Sys2Proof/Machine/Poly.lean ====
section
/-! DEFINITION. The polynomial functions of 41_polynomial.md over coefficient sequences, index 0 the
highest degree (R110). -/

namespace Sys2Proof.Machine

/-- What is left of `c` from its first nonzero coefficient on (R111: "advance the start until a
nonzero coefficient is found"). -/
def trim : List Byte → List Byte
  | [] => []
  | b :: rest => if b = 0 then trim rest else b :: rest

/-- `construct(c, shift)` (R111). -/
def construct (c : List Byte) (shift : Nat) : Poly := trim c ++ List.replicate shift 0

/-- The coefficientwise sum of two sequences aligned at index 0; the longer one's rest is kept. -/
def addAligned : List Byte → List Byte → List Byte
  | [], bs => bs
  | as, [] => as
  | a :: as, b :: bs => gadd a b :: addAligned as bs

/-- `pmul(a, b)` (R117): coefficient `a[i]` contributes `gmul(a[i], b[j])` at index `i + j`, and
contributions at one index are added. Written by schoolbook rows: row `i` is `a[i]` times `b`, moved
`i` places (log 17). For `|a| ≥ 1` and `|b| ≥ 1` the length is `|a| + |b| - 1`. -/
def pmul : Poly → Poly → Poly
  | [], _ => []
  | [a], b => b.map (gmul a)
  | a :: as, b => addAligned (b.map (gmul a)) (0 :: pmul as b)

/-- One pass's `new` (R119): `cur[i] ⊕ gmul(div[i], q)` for `i < |div|`, else `cur[i]`. -/
def subScaled : Poly → Poly → Byte → Poly
  | [], _, _ => []
  | cur, [], _ => cur
  | c :: cs, d :: ds, q => gadd c (gmul d q) :: subScaled cs ds q

/-- `ratio` (R119), the residue in 0..254 of the difference of two logs. -/
def ratio (lc ld : Nat) : Int := ((lc : Int) - (ld : Int)) % (Config.expModulus : Int)

/-- The loop of R119. Every pass shortens `cur`, so `|cur| + 1` passes are never used up (log 12). -/
def pmodLoop : Nat → Poly → Poly → Except Trap Poly
  | 0, cur, _ => .ok cur
  | fuel + 1, cur, div =>
    if cur.length < div.length then .ok cur
    else do
      let lc ← glog (cur.getD 0 0)
      let ld ← glog (div.getD 0 0)
      pmodLoop fuel (construct (subScaled cur div (gexp (ratio lc ld))) 0) div

/-- `pmod(cur, div)` (R119). -/
def pmod (cur div : Poly) : Except Trap Poly :=
  if div.length = 0 then .error ⟨.indexRange, 0⟩ else pmodLoop (cur.length + 1) cur div

/-- `pgen(ec) = ∏ (x + α^i)` for `i` in `0 .. ec-1` (R121). -/
def pgen : Nat → Poly
  | 0 => [0x01]
  | i + 1 => pmul (pgen i) [0x01, gexp i]

end Sys2Proof.Machine
end

