-- ==== Sys2Proof/Machine/Block.lean ====
section
/-! DEFINITION. Block ECC generation and interleaving as functions of byte sequences, and the block
table as `ECCB` and `ILV` read it (42_block_ecc.md). -/

namespace Sys2Proof.Machine

/-- The left zero padding of R131: byte `i` is `m[i + |m| - ec]`, or 0 where that index is negative. -/
def padLeft (m : Poly) (ec : Nat) : List Byte :=
  (List.range ec).map fun i => if ec ≤ i + m.length then m.getD (i + m.length - ec) 0 else 0

/-- `ecc(data, ec)` (R131). A fault of `pmod` would be passed on; R132 (b) says none arises
(log 13). -/
def ecc (data : List Byte) (ec : Nat) : Except Trap (List Byte) := do
  let g := pgen ec
  let m ← pmod (construct data (g.length - 1)) g
  .ok (padLeft m ec)

/-- An RS block `(total, data)` (R130, R134). -/
structure RsBlock where
  total : Nat
  data : Nat
  deriving DecidableEq, Repr

/-- `ec_r = total_r - data_r`, for a block with `data_r ≤ total_r` (R130). -/
def RsBlock.ec (b : RsBlock) : Nat := b.total - b.data

/-- Entry `r` of the table at `t` (R134). -/
def tableEntry (s : State) (t r : Nat) : RsBlock :=
  { total := (s.readByte (t + 2 * r)).toNat, data := (s.readByte (t + 2 * r + 1)).toNat }

/-- The block table: `n` entries at `t` (R134). -/
def blockTable (s : State) (t n : Nat) : List RsBlock := (List.range n).map (tableEntry s t)

/-- The per-block checks of R136, from block number `r` on, in table order. -/
def checkBlocks (lmax : Nat) : Nat → List RsBlock → Except Trap Unit
  | _, [] => .ok ()
  | r, b :: rest => do
    raiseIf (b.total < b.data) ⟨.invalidArgument, r⟩
    raiseIf (lmax < b.ec + 1) ⟨.capacity, b.ec + 1⟩
    raiseIf (lmax < b.total) ⟨.capacity, b.total⟩
    checkBlocks lmax (r + 1) rest

/-- `Σ data_r` (R136). -/
def sumData (blocks : List RsBlock) : Nat := (blocks.map RsBlock.data).sum

/-- `Σ ec_r` (R136). -/
def sumEc (blocks : List RsBlock) : Nat := (blocks.map RsBlock.ec).sum

/-- What `ECCB` and `ILV` do first, in the order of R136: the table's range, the blocks, the ranges of
the data buffer and of the ECC area. The answer is the checked block list. -/
def checkedBlocks (s : State) : Except Trap (List RsBlock) := do
  let t := (s.getCsr .tbase).toNat
  let n := (s.getCsr .nblk).toNat
  rangeCheck s t (2 * n)
  let blocks := blockTable s t n
  checkBlocks s.params.lmax 0 blocks
  rangeCheck s (s.getCsr .dbase).toNat (sumData blocks)
  rangeCheck s (s.getCsr .ebase).toNat (sumEc blocks)
  .ok blocks

/-- Consecutive runs of the given lengths, at a running offset (R135). -/
def runs : List Nat → List Byte → List (List Byte)
  | [], _ => []
  | n :: ns, buf => buf.take n :: runs ns (buf.drop n)

/-- `ecc[0] ++ ecc[1] ++ …` over the buffer, in block order with a running offset (R135, R136). -/
def eccBlocks : List RsBlock → List Byte → Except Trap (List Byte)
  | [], _ => .ok []
  | b :: rest, buf => do
    let e ← ecc (buf.take b.data) b.ec
    let more ← eccBlocks rest (buf.drop b.data)
    .ok (e ++ more)

/-- The longest of the sequences, 0 for none (R137: `max_data`, `max_ecc`). -/
def maxLength : List (List Byte) → Nat
  | [] => 0
  | q :: rest => max q.length (maxLength rest)

/-- Column `i` of the sequences: for each in order, its byte `i` where it has one (R137). -/
def column (seqs : List (List Byte)) (i : Nat) : List Byte := seqs.filterMap fun q => q[i]?

/-- One phase of R137: the columns in order. -/
def columns (seqs : List (List Byte)) : List Byte :=
  (List.range (maxLength seqs)).flatMap (column seqs)

/-- `interleave` (R137): the data phase, then the ECC phase. -/
def interleave (data ecc : List (List Byte)) : List Byte := columns data ++ columns ecc

end Sys2Proof.Machine
end

