-- ==== Sys2Proof/Machine/Operands.lean ====
section
/-! DEFINITION. The operand forms (30_encoding.md R73, R74; 10_state.md R21): how a command reads a
scalar register, and what it writes back to one. -/

namespace Sys2Proof.Machine

/-- `u(x[i])`: an address, count, shift, index or ECC count (R12, R21). -/
def State.unsignedX (s : State) (i : XReg) : Nat := (s.getX i).toNat

/-- `s(x[i])`: `GEXP`'s index, the one signed read (R98, 92_eei_decisions.md D30). -/
def State.signedX (s : State) (i : XReg) : Int := (s.getX i).toInt

/-- A field element operand: `u(x[i])` must be in 0..255, else `InvalidArgument` of the register's
value (R99 to R101, R161). -/
def fieldOperand (s : State) (i : XReg) : Except Trap Byte :=
  if 255 < s.unsignedX i then .error ⟨.invalidArgument, s.unsignedX i⟩
  else .ok ((s.getX i).setWidth 8)

/-- `zext_8(v)` (R12). -/
def zext8 (v : Byte) : Word := v.setWidth 32

/-- `sext_16(imm)` (R12, R74). -/
def sext16 (imm : BitVec 16) : Word := imm.signExtend 32

/-- A count or length written to a scalar register: its low 32 bits (R13). -/
def wordOfNat (n : Nat) : Word := BitVec.ofNat 32 n

/-- `x[i][7:0]`, the value `STB` stores (R154). -/
def State.lowByte (s : State) (i : XReg) : Byte := (s.getX i).extractLsb' 0 8

end Sys2Proof.Machine
end

