-- ==== Sys2Proof/Machine/BlockEcc.lean ====
section
/-! DEFINITION. The block commands (42_block_ecc.md). -/

namespace Sys2Proof.Machine

/-- `ECC1 xa, xb, xc, xd` (R133): `daddr = x[a]`, `dcount = x[b]`, `ec = x[c]`, `eaddr = x[d]`. -/
def execEcc1 (a b c d : XReg) (s : State) : Host.Outcome State Fault Refusal :=
  command (encode (.ecc1 a b c d)) s do
    let dcount := s.unsignedX b
    let ec := s.unsignedX c
    raiseIf (s.params.lmax < ec + 1) ⟨.capacity, ec + 1⟩
    raiseIf (s.params.lmax < dcount + ec) ⟨.capacity, dcount + ec⟩
    rangeCheck s (s.unsignedX a) dcount
    rangeCheck s (s.unsignedX d) ec
    let out ← ecc (s.memRead (s.unsignedX a) dcount) ec
    .ok (s.memWrite (s.unsignedX d) out)

/-- `ECCB` (R136). -/
def execEccb (s : State) : Host.Outcome State Fault Refusal :=
  command (encode .eccb) s do
    let blocks ← checkedBlocks s
    let buf := s.memRead (s.getCsr .dbase).toNat (sumData blocks)
    let out ← eccBlocks blocks buf
    .ok (s.memWrite (s.getCsr .ebase).toNat out)

/-- The stream `ILV` writes (R139): the data runs and the ECC runs as they stand in `M`, interleaved. -/
def ilvStream (s : State) (blocks : List RsBlock) : List Byte :=
  interleave
    (runs (blocks.map RsBlock.data) (s.memRead (s.getCsr .dbase).toNat (sumData blocks)))
    (runs (blocks.map RsBlock.ec) (s.memRead (s.getCsr .ebase).toNat (sumEc blocks)))

/-- `ILV xa` (R139). -/
def execIlv (a : XReg) (s : State) : Host.Outcome State Fault Refusal :=
  command (encode (.ilv a)) s do
    let blocks ← checkedBlocks s
    let n := sumData blocks + sumEc blocks
    rangeCheck s (s.getCsr .obase).toNat n
    .ok ((s.memWrite (s.getCsr .obase).toNat (ilvStream s blocks)).setX a (wordOfNat n))

end Sys2Proof.Machine
end

