-- ==== Sys2Proof/Machine/FieldArith.lean ====
section
/-! DEFINITION. The field arithmetic commands (40_field_arithmetic.md section 3). -/

namespace Sys2Proof.Machine

/-- `GEXP xa, xb` (R98). -/
def execGexp (a b : XReg) (s : State) : Host.Outcome State Fault Refusal :=
  command (encode (.gexp a b)) s (.ok (s.setX a (zext8 (gexp (s.signedX b)))))

/-- `GLOG xa, xb` (R99). -/
def execGlog (a b : XReg) (s : State) : Host.Outcome State Fault Refusal :=
  command (encode (.glog a b)) s do
    let v ← fieldOperand s b
    let l ← glog v
    .ok (s.setX a (wordOfNat l))

/-- `GADD xa, xb, xc` (R100). -/
def execGadd (a b c : XReg) (s : State) : Host.Outcome State Fault Refusal :=
  command (encode (.gadd a b c)) s do
    let v1 ← fieldOperand s b
    let v2 ← fieldOperand s c
    .ok (s.setX a (zext8 (gadd v1 v2)))

/-- `GMUL xa, xb, xc` (R101). -/
def execGmul (a b c : XReg) (s : State) : Host.Outcome State Fault Refusal :=
  command (encode (.gmul a b c)) s do
    let v1 ← fieldOperand s b
    let v2 ← fieldOperand s c
    .ok (s.setX a (zext8 (gmul v1 v2)))

end Sys2Proof.Machine
end

