-- ==== Sys2Proof/Machine/Polynomial.lean ====
section
/-! DEFINITION. The polynomial commands (41_polynomial.md). -/

namespace Sys2Proof.Machine

/-- `n` of `PLD` (R113): the length `construct` will give, leading zeros dropped before the count. -/
def constructLength (c : List Byte) (shift : Nat) : Nat := (trim c).length + shift

/-- `PLD pa, xb, xc, xd` (R113). -/
def execPld (a : PReg) (b c d : XReg) (s : State) : Host.Outcome State Fault Refusal :=
  command (encode (.pld a b c d)) s do
    rangeCheck s (s.unsignedX b) (s.unsignedX c)
    let coeffs := s.memRead (s.unsignedX b) (s.unsignedX c)
    let n := constructLength coeffs (s.unsignedX d)
    raiseIf (s.params.lmax < n) ⟨.capacity, n⟩
    .ok (s.setP a (construct coeffs (s.unsignedX d)))

/-- `PST pa, xb` (R114). -/
def execPst (a : PReg) (b : XReg) (s : State) : Host.Outcome State Fault Refusal :=
  command (encode (.pst a b)) s do
    rangeCheck s (s.unsignedX b) (s.getP a).length
    .ok (s.memWrite (s.unsignedX b) (s.getP a))

/-- `PLEN xa, pb` (R115). -/
def execPlen (a : XReg) (b : PReg) (s : State) : Host.Outcome State Fault Refusal :=
  command (encode (.plen a b)) s (.ok (s.setX a (wordOfNat (s.getP b).length)))

/-- `PIDX xa, pb, xc` (R116). -/
def execPidx (a : XReg) (b : PReg) (c : XReg) (s : State) : Host.Outcome State Fault Refusal :=
  command (encode (.pidx a b c)) s <|
    match (s.getP b)[s.unsignedX c]? with
    | some v => .ok (s.setX a (zext8 v))
    | none => .error ⟨.indexRange, s.unsignedX c⟩

/-- `PMUL pa, pb, pc` (R118). -/
def execPmul (a b c : PReg) (s : State) : Host.Outcome State Fault Refusal :=
  command (encode (.pmul a b c)) s do
    let la := (s.getP b).length
    let lb := (s.getP c).length
    raiseIf (la = 0 ∨ lb = 0) ⟨.invalidArgument, 0⟩
    raiseIf (s.params.lmax < la + lb - 1) ⟨.capacity, la + lb - 1⟩
    .ok (s.setP a (pmul (s.getP b) (s.getP c)))

/-- `PMOD pa, pb, pc` (R120). -/
def execPmod (a b c : PReg) (s : State) : Host.Outcome State Fault Refusal :=
  command (encode (.pmod a b c)) s do
    let m ← pmod (s.getP b) (s.getP c)
    .ok (s.setP a m)

/-- `PGEN pa, xb` (R122). -/
def execPgen (a : PReg) (b : XReg) (s : State) : Host.Outcome State Fault Refusal :=
  command (encode (.pgen a b)) s do
    raiseIf (s.params.lmax < s.unsignedX b + 1) ⟨.capacity, s.unsignedX b + 1⟩
    .ok (s.setP a (pgen (s.unsignedX b)))

end Sys2Proof.Machine
end

