-- ==== Sys2Proof/Machine/Scalar.lean ====
section
/-! DEFINITION. The scalar and system commands (43_scalar_system.md). -/

namespace Sys2Proof.Machine

/-- `NOP` (R151). -/
def execNop (s : State) : Host.Outcome State Fault Refusal :=
  command (encode .nop) s (.ok s)

/-- `LI xa, imm` (R152). -/
def execLi (a : XReg) (imm : BitVec 16) (s : State) : Host.Outcome State Fault Refusal :=
  command (encode (.li a imm)) s (.ok (s.setX a (sext16 imm)))

/-- `LDB xa, xb` (R153). -/
def execLdb (a b : XReg) (s : State) : Host.Outcome State Fault Refusal :=
  command (encode (.ldb a b)) s do
    rangeCheck s (s.unsignedX b) 1
    .ok (s.setX a (zext8 (s.readByte (s.unsignedX b))))

/-- `STB xa, xb` (R154). -/
def execStb (a b : XReg) (s : State) : Host.Outcome State Fault Refusal :=
  command (encode (.stb a b)) s do
    rangeCheck s (s.unsignedX b) 1
    .ok (s.memWrite (s.unsignedX b) [s.lowByte a])

/-- `CSRR xa, csr` (R155). -/
def execCsrr (a : XReg) (csr : Csr) (s : State) : Host.Outcome State Fault Refusal :=
  command (encode (.csrr a csr)) s (.ok (s.setX a (s.getCsr csr)))

/-- `CSRW xa, csr` (R156). The term with a read-only `csr`, which no word decodes to, raises
`IllegalCommand` as R26 says (log 8). -/
def execCsrw (a : XReg) (csr : Csr) (s : State) : Host.Outcome State Fault Refusal :=
  command (encode (.csrw a csr)) s do
    raiseIf (csr.writable = false) ⟨.illegalCommand, 0⟩
    .ok (s.setCsr csr (s.getX a))

end Sys2Proof.Machine
end

