-- ==== Sys2Proof/Machine/Dispatch.lean ====
section
/-! DEFINITION. One arm per command, each a direct call of its meaning (30_encoding.md R75). -/

namespace Sys2Proof.Machine

def exec (i : Instr) (s : State) : Host.Outcome State Fault Refusal :=
  match i with
  | .nop => Sys2Proof.Machine.execNop s
  | .li a imm => Sys2Proof.Machine.execLi a imm s
  | .ldb a b => Sys2Proof.Machine.execLdb a b s
  | .stb a b => Sys2Proof.Machine.execStb a b s
  | .csrr a csr => Sys2Proof.Machine.execCsrr a csr s
  | .csrw a csr => Sys2Proof.Machine.execCsrw a csr s
  | .gexp a b => Sys2Proof.Machine.execGexp a b s
  | .glog a b => Sys2Proof.Machine.execGlog a b s
  | .gadd a b c => Sys2Proof.Machine.execGadd a b c s
  | .gmul a b c => Sys2Proof.Machine.execGmul a b c s
  | .pld a b c d => Sys2Proof.Machine.execPld a b c d s
  | .pst a b => Sys2Proof.Machine.execPst a b s
  | .plen a b => Sys2Proof.Machine.execPlen a b s
  | .pidx a b c => Sys2Proof.Machine.execPidx a b c s
  | .pmul a b c => Sys2Proof.Machine.execPmul a b c s
  | .pmod a b c => Sys2Proof.Machine.execPmod a b c s
  | .pgen a b => Sys2Proof.Machine.execPgen a b s
  | .ecc1 a b c d => Sys2Proof.Machine.execEcc1 a b c d s
  | .eccb => Sys2Proof.Machine.execEccb s
  | .ilv a => Sys2Proof.Machine.execIlv a s

end Sys2Proof.Machine
end

