-- ==== Sys2Proof/Machine/Ports.lean ====
section
/-! DEFINITION. The logical output ports of RSE (10_state.md R35) and the host's use of the memory
window (R36). -/

namespace Sys2Proof.Machine

/-- `idle` (R35, R175): a state of the model stands between commands, so it is always 1. -/
def State.idlePort (_s : State) : Bool := true

/-- `fault`, equal to `STATUS.FAULT` (R35, R169). -/
def State.faultPort (s : State) : Bool := s.faulted

/-- What the host reads through `mem` (R35, R36): a byte of `M`, at an address of the window. -/
def State.memPort (s : State) (addr : Nat) : Option Byte :=
  if addr < s.params.msize then some (s.readByte addr) else none

/-- What the host reads through `obs` (R35): `x0..x15`, `p0..p3` and CSRs 0 to 8. -/
structure Readback where
  x : Vector Word 16
  p : Vector Poly 4
  csr : List Word
  deriving DecidableEq, Repr

/-- The CSRs in the order of their numbers (R26). -/
def csrOrder : List Csr :=
  [.status, .cause, .finfo, .fcmd, .tbase, .nblk, .dbase, .ebase, .obase]

/-- The state readback of R35. -/
def State.obsPort (s : State) : Readback :=
  { x := s.x, p := s.p, csr := csrOrder.map s.getCsr }

/-- A host write through `mem` (R36), in the FAULT state too (R165). An address outside the window
does not exist: `Fault.hostAddress` (log 11). -/
def hostWrite (addr : Nat) (b : Byte) (s : State) : Host.Outcome State Fault Refusal :=
  if addr < s.params.msize then .next (s.memWrite addr [b]) else .fault (.hostAddress addr)

/-- A host read through `mem` (R36): the host gets `memPort addr`; the state of RSE is as before. -/
def hostRead (addr : Nat) (s : State) : Host.Outcome State Fault Refusal :=
  match s.memPort addr with
  | some _ => .next s
  | none => .fault (.hostAddress addr)

end Sys2Proof.Machine
end

