-- ==== Sys2Proof/Machine/Sequencer.lean ====
section
/-! DEFINITION. The command sequencer: what one host event does (10_state.md R20, R36). -/

namespace Sys2Proof.Machine

/-- A command word on `cmd` (R20, R76): the command it decodes to runs, an illegal word raises
`IllegalCommand`. Both discard the word in the FAULT state (R165; `command`). -/
def acceptCommand (w : Word) (s : State) : Host.Outcome State Fault Refusal :=
  match decode w with
  | .ok i => exec i s
  | .error _ => execIllegal w s

/-- One host event (R35, R36, R182). -/
def acceptEvent (e : HostEvent) (s : State) : Host.Outcome State Fault Refusal :=
  match e with
  | .command w => acceptCommand w s
  | .memWrite addr b => hostWrite addr b s
  | .memRead addr => hostRead addr s
  | .observe => .next s
  | .reset => .next s.afterReset
  | .resetDuring _ => .next s.afterReset

/-- Take the host's next event off the inbox. With none pending RSE is idle and holds its state
(R175; log 10). -/
def nextEvent (s : State) : Host.Outcome State Fault Refusal :=
  match s.inbox with
  | [] => .next s
  | e :: rest => acceptEvent e { s with inbox := rest }

/-- The event that presents the table word `w` (R70: one 32-bit word). -/
def presentWord (s : State) (w : Nat) : State :=
  { s with inbox := .command (BitVec.ofNat 32 w) :: s.inbox }

end Sys2Proof.Machine
end

