-- ==== Sys2Proof/Machine/Step.lean ====
section
/-! DEFINITION. One step of the machine, and the placing of a command word for the next step. -/

namespace Sys2Proof.Machine

/-- One step: the host's next event (R20, R36). -/
def step (s : State) : Host.Outcome State Fault Refusal := nextEvent s

/-- `s` with the table word `w` presented by the host before anything else it has pending, so that the
next step runs it (log 1). RSE fetches nothing: the host loads the program, word by word (R24). -/
def State.withFetchWord (s : State) (_nbits w : Nat) : State := presentWord s w

end Sys2Proof.Machine
end

