-- ==== Sys2Proof/Safety.lean ====
section
/-! DEFINITION. What the claims speak of: the invariants of the state the spec names, a run that
ended well, and what a command may change. -/

namespace Sys2Proof.Machine

/-- A polynomial register's invariant (10_state.md R23): at most `LMAX` coefficients, and empty, or
with a nonzero leading coefficient, or all zero. -/
abbrev polyOk (lmax : Nat) (c : Poly) : Prop :=
  c.length ≤ lmax ∧ (c = [] ∨ c.head? ≠ some 0 ∨ ∀ b ∈ c, b = 0)

/-- R23 of all four registers. -/
abbrev State.polysOk (s : State) : Prop := ∀ i : PReg, polyOk s.params.lmax (s.getP i)

/-- The memory is in canonical form and inside `M` (20_memory.md R50; log 3). -/
abbrev State.memOk (s : State) : Prop := Memory.wf s.mem ∧ ∀ c ∈ s.mem, c.1 < s.params.msize

/-- What R27 to R30 say of the four fault registers: all 0 while `FAULT = 0`; while `FAULT = 1`,
`STATUS` reads 1 and `CAUSE` a code from 1 to 6. -/
abbrev State.faultRegsOk (s : State) : Prop :=
  if s.faulted then s.status = 1 ∧ 1 ≤ s.cause.toNat ∧ s.cause.toNat ≤ 6
  else s.status = 0 ∧ s.cause = 0 ∧ s.finfo = 0 ∧ s.fcmd = 0

/-- The invariant of RSE: every step keeps it (`Obligations` states it part by part). -/
abbrev State.Inv (s : State) : Prop := s.polysOk ∧ s.memOk ∧ s.faultRegsOk

/-- A command stream that ran to its end: nothing pending and no fault. A state with `FAULT = 1` is
never final (R165). -/
abbrev State.ranToEnd (s : State) : Prop := s.inbox = [] ∧ s.faulted = false

/-- Whether an event is `rst`, alone or during a command (R181, R182). -/
def HostEvent.isReset : HostEvent → Bool
  | .reset | .resetDuring _ => true
  | .command _ | .memWrite _ _ | .memRead _ | .observe => false

/-- What a state `t` that comes after `s` may differ from it in: scalar registers `xs`, polynomial registers
`ps`, read-write CSRs `cs`, bytes of `M` `ms`; nothing else. The four fault registers may differ only
where `FAULT` was 0 and is 1 (R163); a state with `FAULT` 1 keeps all four (R166). -/
structure ChangesOnly (s t : State) (xs : XReg → Prop) (ps : PReg → Prop) (cs : Csr → Prop)
    (ms : Nat → Prop) : Prop where
  x : ∀ j, ¬ xs j → t.getX j = s.getX j
  p : ∀ j, ¬ ps j → t.getP j = s.getP j
  rw : ∀ c : Csr, c.writable = true → ¬ cs c → t.getCsr c = s.getCsr c
  fault : ¬ (s.faulted = false ∧ t.faulted = true) →
    ∀ c : Csr, c.writable = false → t.getCsr c = s.getCsr c
  mem : ∀ addr, ¬ ms addr → t.readByte addr = s.readByte addr
  params : t.params = s.params
  epoch : t.epoch = s.epoch
  inbox : t.inbox = s.inbox

end Sys2Proof.Machine
end

