-- ==== Sys2Proof/Certificates/Slice0/Obligations.lean ====
section
/-! DEFINITION. The statements about RSE for the provers. Each says which rule of spec/ it formalises;
none is about a program. -/

namespace Sys2Proof.Claims

open Sys2Proof.Machine

/-! Vocabulary of the statements about commands. -/

/-- The number of a format R word with `z = 0` (30_encoding.md R71). -/
def wordR (op a b c d : Nat) : Nat :=
  op * 0x1000000 + a * 0x100000 + b * 0x10000 + c * 0x1000 + d * 0x100

/-- The number of a format I word with `zb = 0` (R72). -/
def wordI (op a imm : Nat) : Nat := op * 0x1000000 + a * 0x100000 + imm

/-- The CSR numbers of R80. -/
def csrNo : Csr → Nat
  | .status => 0
  | .cause => 1
  | .finfo => 2
  | .fcmd => 3
  | .tbase => 4
  | .nblk => 5
  | .dbase => 6
  | .ebase => 7
  | .obase => 8

/-- `op`, bits 31:24 of a word. -/
def opOf (w : Word) : Nat := w.toNat / 0x1000000

/-- The word `n`, and no other, is the command `i` (R75, R76). -/
def WordOf (i : Instr) (n : Nat) : Prop := ∀ w : Word, decode w = .ok i ↔ w.toNat = n

/-- Presented outside the FAULT state, the word raises `IllegalCommand` with `FINFO = 0` and
`FCMD` = the word, and changes nothing else (R77). -/
def Malformed (w : Word) : Prop :=
  ∀ s : State, s.faulted = false →
    acceptCommand w s = .next (s.enterFault ⟨.illegalCommand, 0⟩ w)

/-- The low `k` bits of a word with opcode `op` (its unused operand fields and `z`) must be zero
(R77 item 2). -/
def LowBitsZero (op k : Nat) : Prop := ∀ w : Word, opOf w = op → w.toNat % 2 ^ k ≠ 0 → Malformed w

/-- Bits 19:16 of a word with opcode `op` (`zb`) must be zero (R77 item 3). -/
def ZbZero (op : Nat) : Prop := ∀ w : Word, opOf w = op → w.toNat / 2 ^ 16 % 16 ≠ 0 → Malformed w

/-- The field at bit `lo` of a word with opcode `op` is a polynomial register field: 4 to 15 are
illegal (R77 item 4). -/
def PolyField (op lo : Nat) : Prop := ∀ w : Word, opOf w = op → 4 ≤ w.toNat / 2 ^ lo % 16 → Malformed w

/-- The command `i`, whose word is `n`, raises the cause with this information: its whole step is
the fault entry (60_exceptions.md R163). -/
def Raises (i : Instr) (n : Nat) (s : State) (c : Cause) (info : Nat) : Prop :=
  exec i s = .next (s.enterFault ⟨c, info⟩ (BitVec.ofNat 32 n))

/-- An access of `n` bytes at `addr` is in range (20_memory.md R54). -/
abbrev InRange (s : State) (addr n : Nat) : Prop := n = 0 ∨ addr + n ≤ s.params.msize

/-- Nothing: no register, no byte. -/
def nothing {α : Type} : α → Prop := fun _ => False

/-! Vocabulary of the block table (42_block_ecc.md R134, R135). -/

/-- `total_r`. -/
def total (s : State) (r : Nat) : Nat := (s.readByte (s.tbase.toNat + 2 * r)).toNat

/-- `data_r`. -/
def data (s : State) (r : Nat) : Nat := (s.readByte (s.tbase.toNat + 2 * r + 1)).toNat

/-- `ec_r`. -/
def ec (s : State) (r : Nat) : Nat := total s r - data s r

/-- `off_r`, the running data offset; at `r = NBLK` it is `Σ data_r`. -/
def dataBefore (s : State) (r : Nat) : Nat := ((List.range r).map (data s)).sum

/-- `Σ_{q<r} ec_q`; at `r = NBLK` it is `Σ ec_r`. -/
def ecBefore (s : State) (r : Nat) : Nat := ((List.range r).map (ec s)).sum

/-- `NBLK`. -/
def nblk (s : State) : Nat := s.nblk.toNat

/-- Block `r` passes the checks of R136. -/
abbrev BlockPasses (s : State) (r : Nat) : Prop :=
  data s r ≤ total s r ∧ ec s r + 1 ≤ s.params.lmax ∧ total s r ≤ s.params.lmax

/-- The table is in range and every block passes (R136). -/
abbrev TablePasses (s : State) : Prop :=
  InRange s s.tbase.toNat (2 * nblk s) ∧ ∀ r < nblk s, BlockPasses s r

/-- Everything `ECCB` checks (R136). -/
abbrev BlocksPass (s : State) : Prop :=
  TablePasses s ∧ InRange s s.dbase.toNat (dataBefore s (nblk s)) ∧
    InRange s s.ebase.toNat (ecBefore s (nblk s))

/-- The faults of R136 in its order, for a command `i` with word `n`. -/
def BlockFaults (i : Instr) (n : Nat) (s : State) : Prop :=
  (¬ InRange s s.tbase.toNat (2 * nblk s) → Raises i n s .memRange s.tbase.toNat) ∧
  (InRange s s.tbase.toNat (2 * nblk s) → ∀ r < nblk s, (∀ q < r, BlockPasses s q) →
    (total s r < data s r → Raises i n s .invalidArgument r) ∧
    (data s r ≤ total s r → s.params.lmax < ec s r + 1 → Raises i n s .capacity (ec s r + 1)) ∧
    (data s r ≤ total s r → ec s r + 1 ≤ s.params.lmax → s.params.lmax < total s r →
      Raises i n s .capacity (total s r))) ∧
  (TablePasses s → ¬ InRange s s.dbase.toNat (dataBefore s (nblk s)) →
    Raises i n s .memRange s.dbase.toNat) ∧
  (TablePasses s → InRange s s.dbase.toNat (dataBefore s (nblk s)) →
    ¬ InRange s s.ebase.toNat (ecBefore s (nblk s)) → Raises i n s .memRange s.ebase.toNat)

/-! Vocabulary of the arithmetic. -/

/-- `a · x^k`, by `k` shifts with reduction by 0x11D (40_field_arithmetic.md R90). -/
def xtimes (a : Byte) : Nat → Byte
  | 0 => a
  | k + 1 => xtime (xtimes a k)

/-- The shift-and-add product of two bytes, reduced modulo 0x11D at each shift (R97). -/
def shiftAndAdd (a b : Byte) : Byte :=
  ((List.range 8).map fun k => if b.getLsbD k then xtimes a k else 0).foldl (· ^^^ ·) 0

/-- The exclusive or over all `(i, j)` with `i < |a|`, `j < |b|`, `i + j = k` of `gmul(a[i], b[j])`
(41_polynomial.md R117). -/
def convolution (a b : Poly) (k : Nat) : Byte :=
  ((List.range a.length).flatMap fun i =>
    (List.range b.length).filterMap fun j =>
      if i + j = k then some (gmul (a.getD i 0) (b.getD j 0)) else none).foldl (· ^^^ ·) 0

/-- `new` of one pass of R119, coefficient by coefficient. -/
def passResult (cur div : Poly) (q : Byte) : Poly :=
  (List.range cur.length).map fun i =>
    if i < div.length then cur.getD i 0 ^^^ gmul (div.getD i 0) q else cur.getD i 0

/-- One phase of R137: for `i` below the longest length, for each sequence in order, byte `i` of it
where it has one. -/
def phase (seqs : List (List Byte)) : List Byte :=
  (List.range ((seqs.map List.length).foldl max 0)).flatMap fun i =>
    (List.range seqs.length).flatMap fun r =>
      if i < (seqs.getD r []).length then [(seqs.getD r []).getD i 0] else []

end Sys2Proof.Claims

open Sys2Proof Sys2Proof.Machine Sys2Proof.Claims

/-! ## Encoding (30_encoding.md) -/

/-- R75, R76: decoding the word of a well-formed command gives the command back, with every operand at
every value. -/
def Obligations.DecodeOfEncodeIsIdentity : Prop :=
  ∀ i : Instr, i.wellFormed = true → decode (encode i) = .ok i

/-- R76: every word is the word of exactly one well-formed command, or it is illegal. -/
def Obligations.EveryWordIsOneCommandOrIllegal : Prop :=
  ∀ w : Word,
    (∃ i, decode w = .ok i ∧ i.wellFormed = true ∧ encode i = w ∧
      ∀ j : Instr, j.wellFormed = true → encode j = w → j = i) ∨
    ((∃ e, decode w = .error e) ∧ (∀ j : Instr, j.wellFormed = true → encode j ≠ w) ∧ Malformed w)

/-- R77: the illegal words are those of its five items and no others, and each raises
`IllegalCommand`. -/
def Obligations.IllegalWordsAreTheFiveItems : Prop :=
  ∀ w : Word,
    (¬ (∃ i, decode w = .ok i) ↔
      (opOf w ∉ [0x00, 0x01, 0x02, 0x03, 0x04, 0x05, 0x10, 0x11, 0x12, 0x13, 0x20, 0x21, 0x22, 0x23,
        0x24, 0x25, 0x26, 0x30, 0x31, 0x32]) ∨
      (opOf w ∈ [0x00, 0x31] ∧ w.toNat % 2 ^ 24 ≠ 0) ∨
      (opOf w = 0x32 ∧ w.toNat % 2 ^ 20 ≠ 0) ∨
      (opOf w ∈ [0x02, 0x03, 0x10, 0x11, 0x21, 0x22, 0x26] ∧ w.toNat % 2 ^ 16 ≠ 0) ∨
      (opOf w ∈ [0x12, 0x13, 0x23, 0x24, 0x25] ∧ w.toNat % 2 ^ 12 ≠ 0) ∨
      (opOf w ∈ [0x20, 0x30] ∧ w.toNat % 2 ^ 8 ≠ 0) ∨
      (opOf w ∈ [0x01, 0x04, 0x05] ∧ w.toNat / 2 ^ 16 % 16 ≠ 0) ∨
      (opOf w ∈ [0x20, 0x21, 0x24, 0x25, 0x26] ∧ 4 ≤ w.toNat / 2 ^ 20 % 16) ∨
      (opOf w ∈ [0x22, 0x23, 0x24, 0x25] ∧ 4 ≤ w.toNat / 2 ^ 16 % 16) ∨
      (opOf w ∈ [0x24, 0x25] ∧ 4 ≤ w.toNat / 2 ^ 12 % 16) ∨
      (opOf w = 0x04 ∧ 8 < w.toNat % 2 ^ 16) ∨
      (opOf w = 0x05 ∧ (w.toNat % 2 ^ 16 < 4 ∨ 8 < w.toNat % 2 ^ 16))) ∧
    (¬ (∃ i, decode w = .ok i) → Malformed w)

/-- The worked encodings of 30_encoding.md section 6, one word of every family (a sanity statement). -/
def Obligations.WorkedEncodingsDecode : Prop :=
  decode 0x00000000 = .ok .nop ∧ decode 0x011000C8 = .ok (.li 1 200) ∧
  decode 0x0170FFFF = .ok (.li 7 0xFFFF) ∧ decode 0x03410000 = .ok (.stb 4 1) ∧
  decode 0x05100007 = .ok (.csrw 1 .ebase) ∧ decode 0x13534000 = .ok (.gmul 5 3 4) ∧
  decode 0x20123200 = .ok (.pld 1 2 3 2) ∧ decode 0x25023000 = .ok (.pmod 0 2 3) ∧
  decode 0x30123400 = .ok (.ecc1 1 2 3 4) ∧ decode 0x32200000 = .ok (.ilv 2) ∧
  decode 0x24400000 = .error .polyRegister ∧ decode 0x10120001 = .error .nonzeroField ∧
  decode 0x06000000 = .error .reservedOpcode ∧ decode 0x05100000 = .error .csrNumber

/-! ## The step (10_state.md R20, R36) -/

/-- R20, R77: the step takes the word the host presents off its pending actions (the model's inbox,
log 1). If the word decodes to a well-formed command, the step is `exec` of it; if it is illegal, the
step is the fault entry of `IllegalCommand` (R163), or in the FAULT state discards the word (R165). -/
def Obligations.StepRunsDecodedCommand : Prop :=
  ∀ (s : State) (w : Word) (rest : List HostEvent), s.inbox = .command w :: rest →
    let s' : State := { s with inbox := rest }
    step s = acceptCommand w s' ∧
    (∀ i, decode w = .ok i → i.wellFormed = true → step s = exec i s') ∧
    (∀ e, decode w = .error e → s.faulted = false →
      step s = .next (s'.enterFault ⟨.illegalCommand, 0⟩ w)) ∧
    (∀ e, decode w = .error e → s.faulted = true → step s = .next s')

/-- R35, R36, R175 with the model's inbox (log 1, log 10, log 11, log 18): what a step does when the
host writes or reads a byte of `M`, reads the state back, or does nothing. -/
def Obligations.HostAccessesTouchOnlyMemory : Prop :=
  ∀ (s : State) (rest : List HostEvent) (addr : Nat) (b : Byte),
    (s.inbox = [] → step s = .next s) ∧
    (s.inbox = .observe :: rest → step s = .next { s with inbox := rest }) ∧
    (s.inbox = .memRead addr :: rest → addr < s.params.msize →
      step s = .next { s with inbox := rest } ∧ s.memPort addr = some (s.readByte addr)) ∧
    (s.inbox = .memWrite addr b :: rest → addr < s.params.msize →
      let s' : State := { s with inbox := rest }
      let t := s'.memWrite addr [b]
      step s = .next t ∧ t.readByte addr = b ∧ t.inbox = rest ∧ (∀ c, t.getCsr c = s.getCsr c) ∧
        ChangesOnly s' t nothing nothing nothing (· = addr)) ∧
    (s.inbox = .memRead addr :: rest ∨ s.inbox = .memWrite addr b :: rest → s.params.msize ≤ addr →
      step s = .fault (.hostAddress addr))

/-- R190: every command, in every state, answers a next state. -/
def Obligations.EveryCommandTerminates : Prop :=
  ∀ (i : Instr) (s : State), ∃ t, exec i s = .next t

/-! ## Reset (10_state.md R37, 70_reset_and_hazards.md R180) -/

/-- R37: the state after reset; no byte of `M` has a recorded value. -/
def Obligations.ResetStateValues : Prop :=
  (∀ i, State.reset.getX i = 0) ∧ (∀ k, State.reset.getP k = []) ∧
  (∀ c, State.reset.getCsr c = 0) ∧ State.reset.faulted = false ∧
  (∀ addr, memLookup State.reset.mem addr = Memory.unlisted) ∧ State.reset.idlePort = true

/-- R180, R166, R182: `rst`, between commands or during one, gives the reset state from every state,
the FAULT state too. The model's own: no byte of `M` is recorded and the epoch moves on (log 2, log 3),
the parameters stay (log 4), the rest of the inbox stays (log 1, log 9). -/
def Obligations.ResetEventGivesResetState : Prop :=
  ∀ (s : State) (e : HostEvent) (rest : List HostEvent),
    s.inbox = e :: rest → e.isReset = true →
    ∃ t, step s = .next t ∧ (∀ i, t.getX i = 0) ∧ (∀ k, t.getP k = []) ∧ (∀ c, t.getCsr c = 0) ∧
      t.faulted = false ∧ (∀ addr, memLookup t.mem addr = Memory.unlisted) ∧
      t.epoch = s.epoch + 1 ∧ t.params = s.params ∧ t.inbox = rest

/-- The reset state meets every invariant stated below (R23, R27 to R30, R50, R10, R11). -/
def Obligations.ResetMeetsInvariants : Prop := State.reset.Inv ∧ State.reset.params.valid

/-! ## Registers and memory -/

/-- R21, R22, R26, R31: each register file reads back what was last written to that register and keeps
the others. -/
def Obligations.RegistersReadBack : Prop :=
  ∀ (s : State) (i j : XReg) (v : Word) (k l : PReg) (c : Poly) (m n : Csr),
    (s.setX i v).getX j = (if i = j then v else s.getX j) ∧
    (s.setP k c).getP l = (if k = l then c else s.getP l) ∧
    (m.writable = true → (s.setCsr m v).getCsr n = if m = n then v else s.getCsr n)

/-- R52, R53: `MemRead` gives the bytes at ascending addresses; `MemWrite` sets its bytes and changes
no other. -/
def Obligations.MemoryReadsAfterWrites : Prop :=
  ∀ (s : State) (addr n : Nat) (bs : List Byte) (a : Nat),
    (s.memRead addr n).length = n ∧
    (∀ k < n, (s.memRead addr n)[k]? = some (s.readByte (addr + k))) ∧
    (s.memWrite addr bs).readByte a =
      if addr ≤ a ∧ a < addr + bs.length then bs.getD (a - addr) 0 else s.readByte a

/-! ## Faults (60_exceptions.md) -/

/-- R163: fault entry writes the four fault registers and nothing else. -/
def Obligations.FaultEntryWritesFaultRegisters : Prop :=
  ∀ (s : State) (c : Cause) (info : Nat) (w : Word),
    let t := s.enterFault ⟨c, info⟩ w
    t.faulted = true ∧ t.getCsr .cause = c.code ∧ (t.getCsr .finfo).toNat = info % 2 ^ 32 ∧
    t.getCsr .fcmd = w ∧ (∀ k, 1 ≤ k → t.status.getLsbD k = s.status.getLsbD k) ∧
    [Cause.illegalCommand, .logOfZero, .indexRange, .invalidArgument, .memRange, .capacity].map
      Cause.code = [1, 2, 3, 4, 5, 6] ∧
    (∀ i, t.getX i = s.getX i) ∧ (∀ k, t.getP k = s.getP k) ∧
    (∀ r : Csr, r.writable = true → t.getCsr r = s.getCsr r) ∧
    (∀ addr, t.readByte addr = s.readByte addr)

/-- R164: after a fault the state is the state before the faulting command plus the four fault
registers, whatever the command. -/
def Obligations.FaultsArePrecise : Prop :=
  ∀ (i : Instr) (s t : State), i.wellFormed = true → s.faulted = false → exec i s = .next t →
    t.faulted = true →
    (∃ c info, t = s.enterFault ⟨c, info⟩ (encode i)) ∧ decode t.fcmd = .ok i ∧
    ChangesOnly s t nothing nothing nothing nothing

/-- R165, R166, R167, R27: in the FAULT state a presented word is discarded, and no host event but
`rst` changes a register or clears `FAULT`. -/
def Obligations.FaultStateIsLeftByResetOnly : Prop :=
  ∀ (s : State) (e : HostEvent) (rest : List HostEvent), s.faulted = true → s.inbox = e :: rest →
    (∀ w, e = .command w → step s = .next { s with inbox := rest }) ∧
    (∀ t, step s = .next t → e.isReset = false →
      t.faulted = true ∧ (∀ i, t.getX i = s.getX i) ∧ (∀ k, t.getP k = s.getP k) ∧
      (∀ c, t.getCsr c = s.getCsr c))

/-! ## Invariants every step keeps -/

/-- R23: the polynomial registers' invariant is kept by every step, from every state that has it. -/
def Obligations.StepKeepsPolynomialInvariant : Prop :=
  ∀ s t : State, s.polysOk → step s = .next t → t.polysOk

/-- Every step keeps the memory in canonical form and inside `M` (log 3; 20_memory.md R50, R54). -/
def Obligations.StepKeepsMemoryCanonical : Prop :=
  ∀ s t : State, s.memOk → step s = .next t → t.memOk

/-- R27 to R30: what the fault registers hold while `FAULT` is 0 and while it is 1 is kept by every
step. -/
def Obligations.StepKeepsFaultRegisters : Prop :=
  ∀ s t : State, s.faultRegsOk → step s = .next t → t.faultRegsOk

/-- R10, R11: the parameters, which the model carries in its state (log 4), never change. -/
def Obligations.StepKeepsParameters : Prop := ∀ s t : State, step s = .next t → t.params = s.params

/-! ## Whole-machine rules -/

/-- A polynomial register differs after a step only if the step is `rst` (R180) or a `PLD`, `PMUL`,
`PMOD` or `PGEN` naming it as its destination (R113, R118, R120, R122): no other command writes one
(R33, R98 to R101, R114 to R116, R133, R136, R139, R150), nor does a fault (R163) or the host (R36). -/
def Obligations.OnlyFourCommandsWritePolynomials : Prop :=
  ∀ (s t : State) (k : PReg), step s = .next t → t.getP k ≠ s.getP k →
    ∃ e rest, s.inbox = e :: rest ∧
      (e.isReset = true ∨
        ∃ w, e = .command w ∧
          ((∃ b c d, decode w = .ok (.pld k b c d)) ∨ (∃ b c, decode w = .ok (.pmul k b c)) ∨
           (∃ b c, decode w = .ok (.pmod k b c)) ∨ (∃ b, decode w = .ok (.pgen k b))))

/-- R31: `TBASE`, `NBLK`, `DBASE`, `EBASE`, `OBASE` are written by `CSRW` and reset only. -/
def Obligations.OnlyCsrwWritesBaseRegisters : Prop :=
  ∀ (s t : State) (c : Csr), c.writable = true → step s = .next t → t.getCsr c ≠ s.getCsr c →
    ∃ e rest, s.inbox = e :: rest ∧
      (e.isReset = true ∨ ∃ w a, e = .command w ∧ decode w = .ok (.csrw a c) ∧ t.getCsr c = s.getX a)

/-! ## Frames -/

/-- What the commands with a scalar destination leave unchanged: everything but `x[a]` (R98 to R101,
R115, R116, R152, R153, R155). -/
def Obligations.ScalarCommandsChangeOnlyTheirDestination : Prop :=
  ∀ (s t : State) (a b c : XReg) (imm : BitVec 16) (csr : Csr) (k : PReg),
    (exec (.li a imm) s = .next t → ChangesOnly s t (· = a) nothing nothing nothing) ∧
    (exec (.ldb a b) s = .next t → ChangesOnly s t (· = a) nothing nothing nothing) ∧
    (exec (.csrr a csr) s = .next t → ChangesOnly s t (· = a) nothing nothing nothing) ∧
    (exec (.gexp a b) s = .next t → ChangesOnly s t (· = a) nothing nothing nothing) ∧
    (exec (.glog a b) s = .next t → ChangesOnly s t (· = a) nothing nothing nothing) ∧
    (exec (.gadd a b c) s = .next t → ChangesOnly s t (· = a) nothing nothing nothing) ∧
    (exec (.gmul a b c) s = .next t → ChangesOnly s t (· = a) nothing nothing nothing) ∧
    (exec (.plen a k) s = .next t → ChangesOnly s t (· = a) nothing nothing nothing) ∧
    (exec (.pidx a k c) s = .next t → ChangesOnly s t (· = a) nothing nothing nothing)

/-- What the commands with a polynomial destination leave unchanged: everything but `p[a]` (R113,
R118, R120, R122). -/
def Obligations.PolynomialCommandsChangeOnlyTheirDestination : Prop :=
  ∀ (s t : State) (a k l : PReg) (b c d : XReg),
    (exec (.pld a b c d) s = .next t → ChangesOnly s t nothing (· = a) nothing nothing) ∧
    (exec (.pmul a k l) s = .next t → ChangesOnly s t nothing (· = a) nothing nothing) ∧
    (exec (.pmod a k l) s = .next t → ChangesOnly s t nothing (· = a) nothing nothing) ∧
    (exec (.pgen a b) s = .next t → ChangesOnly s t nothing (· = a) nothing nothing)

/-- What the storing commands leave unchanged: every register (but `ILV`'s count) and every byte
outside the bytes stored, at the address each computes (R114, R133, R136, R139, R154). -/
def Obligations.StoringCommandsChangeOnlyTheirBytes : Prop :=
  ∀ (s t : State) (a b c d : XReg) (k : PReg),
    (exec (.stb a b) s = .next t →
      ChangesOnly s t nothing nothing nothing (fun m => m = s.unsignedX b)) ∧
    (exec (.pst k b) s = .next t →
      ChangesOnly s t nothing nothing nothing
        (fun m => s.unsignedX b ≤ m ∧ m < s.unsignedX b + (s.getP k).length)) ∧
    (exec (.ecc1 a b c d) s = .next t →
      ChangesOnly s t nothing nothing nothing
        (fun m => s.unsignedX d ≤ m ∧ m < s.unsignedX d + s.unsignedX c)) ∧
    (exec .eccb s = .next t →
      ChangesOnly s t nothing nothing nothing
        (fun m => s.ebase.toNat ≤ m ∧ m < s.ebase.toNat + ecBefore s (nblk s))) ∧
    (exec (.ilv a) s = .next t →
      ChangesOnly s t (· = a) nothing nothing
        (fun m => s.obase.toNat ≤ m ∧
          m < s.obase.toNat + (dataBefore s (nblk s) + ecBefore s (nblk s))))

/-- What `NOP` and `CSRW` leave unchanged: all, and all but the CSR named (R151, R156). -/
def Obligations.NopAndCsrwChangeOnlyTheirDestination : Prop :=
  ∀ (s t : State) (a : XReg) (csr : Csr),
    (exec .nop s = .next t → t = s) ∧
    (exec (.csrw a csr) s = .next t → ChangesOnly s t nothing nothing (· = csr) nothing)

/-! ## Scalar and system commands (43_scalar_system.md) -/

/-- R151: `NOP`, the all-zero word, does nothing, in the FAULT state too. -/
def Obligations.NopDoesNothing : Prop :=
  WordOf .nop (wordR 0x00 0 0 0 0) ∧ LowBitsZero 0x00 24 ∧ ∀ s : State, exec .nop s = .next s

/-- R152: `LI` writes the sign-extended immediate. -/
def Obligations.LiWritesSignExtendedImmediate : Prop :=
  ZbZero 0x01 ∧ ∀ (a : XReg) (imm : BitVec 16),
    WordOf (.li a imm) (wordI 0x01 a imm.toNat) ∧
    ∀ s : State, s.faulted = false →
      exec (.li a imm) s = .next (s.setX a (BitVec.ofInt 32 imm.toInt))

/-- R153: `LDB` loads a byte with zero extension, or raises `MemRange`. -/
def Obligations.LdbLoadsZeroExtendedByte : Prop :=
  LowBitsZero 0x02 16 ∧ ∀ a b : XReg,
    WordOf (.ldb a b) (wordR 0x02 a b 0 0) ∧
    ∀ s : State, s.faulted = false →
      let addr := (s.getX b).toNat
      (s.params.msize ≤ addr → Raises (.ldb a b) (wordR 0x02 a b 0 0) s .memRange addr) ∧
      (addr < s.params.msize →
        exec (.ldb a b) s = .next (s.setX a (BitVec.ofNat 32 (s.readByte addr).toNat)))

/-- R154: `STB` stores the low byte of a register, or raises `MemRange`. -/
def Obligations.StbStoresLowByte : Prop :=
  LowBitsZero 0x03 16 ∧ ∀ a b : XReg,
    WordOf (.stb a b) (wordR 0x03 a b 0 0) ∧
    ∀ s : State, s.faulted = false →
      let addr := (s.getX b).toNat
      (s.params.msize ≤ addr → Raises (.stb a b) (wordR 0x03 a b 0 0) s .memRange addr) ∧
      (addr < s.params.msize →
        exec (.stb a b) s = .next (s.memWrite addr [BitVec.ofNat 8 (s.getX a).toNat]))

/-- R155: `CSRR` reads each of the nine CSRs; of the four fault registers it can only ever read 0. -/
def Obligations.CsrrReadsCsr : Prop :=
  ZbZero 0x04 ∧ (∀ w : Word, opOf w = 0x04 → 8 < w.toNat % 2 ^ 16 → Malformed w) ∧
  ∀ (a : XReg) (c : Csr),
    WordOf (.csrr a c) (wordI 0x04 a (csrNo c)) ∧
    ∀ s : State, s.faulted = false →
      exec (.csrr a c) s = .next (s.setX a (s.getCsr c)) ∧
      (s.faultRegsOk → c.writable = false → exec (.csrr a c) s = .next (s.setX a 0))

/-- R156 with R26: `CSRW` writes a read-write CSR whole, unchecked; a read-only CSR is an illegal
command. -/
def Obligations.CsrwWritesReadWriteCsr : Prop :=
  ZbZero 0x05 ∧
  (∀ w : Word, opOf w = 0x05 → w.toNat % 2 ^ 16 < 4 ∨ 8 < w.toNat % 2 ^ 16 → Malformed w) ∧
  ∀ (a : XReg) (c : Csr),
    (c.writable = true ↔ 4 ≤ csrNo c) ∧
    (c.writable = true → WordOf (.csrw a c) (wordI 0x05 a (csrNo c))) ∧
    ∀ s : State, s.faulted = false →
      (c.writable = true → exec (.csrw a c) s = .next (s.setCsr c (s.getX a))) ∧
      (c.writable = false →
        Raises (.csrw a c) (wordI 0x05 a (csrNo c)) s .illegalCommand 0)

/-! ## Field arithmetic (40_field_arithmetic.md) -/

/-- R90, R92: `EXP` follows the recurrence by `xtime`, its entries 0 to 254 are the nonzero bytes, each
once, and `LOG` is its inverse, with no entry for 0. That `α` is 02 and how a byte stands for a field
element rest on the spec's own general knowledge (R7; log 14, PRESUMED). -/
def Obligations.TablesAreThePowersOfAlpha : Prop :=
  expTable 0 = 0x01 ∧ expTable 255 = 0x01 ∧ expTable 1 = Config.alpha ∧
  (∀ v : Byte, (xtime v).toNat =
    if v.toNat < 128 then 2 * v.toNat else (2 * v.toNat) ^^^ 0x11D) ∧
  (∀ i < 255, expTable (i + 1) = xtime (expTable i)) ∧ (∀ i < 255, expTable i ≠ 0) ∧
  logTable 0 = none ∧
  (∀ v : Byte, v ≠ 0 → ∃ l < 255, logTable v = some l ∧ expTable l = v) ∧
  (∀ i < 255, logTable (expTable i) = some i)

/-- R94, R95: `gexp` folds any integer modulo 255 and is never 0; `glog` fails at 0 only; the two are
inverse. -/
def Obligations.GexpAndGlogAreInverse : Prop :=
  (∀ i : Int, gexp i = expTable (i % 255).toNat ∧ gexp (i + 255) = gexp i ∧ gexp i ≠ 0 ∧
    glog (gexp i) = .ok (i % 255).toNat) ∧
  gexp 255 = 0x01 ∧ gexp 0 = 0x01 ∧ gexp (-1) = 0x8E ∧ gexp 254 = 0x8E ∧
  glog 0 = .error ⟨.logOfZero, 0⟩ ∧
  (∀ v : Byte, v ≠ 0 → ∃ l ≤ 254, glog v = .ok l ∧ logTable v = some l ∧ gexp l = v)

/-- R97: the table product is the shift-and-add product modulo 0x11D, commutative, associative, with
unit 1 and no zero divisors, properties the spec marks as derived; it distributes over exclusive or
(95_test_vectors.md V4). -/
def Obligations.GmulIsTheFieldProduct : Prop :=
  (∀ a b : Byte, gmul a b = shiftAndAdd a b ∧ gmul a b = gmul b a ∧ gmul a 1 = a ∧
    (gmul a b = 0 ↔ a = 0 ∨ b = 0) ∧
    (∀ la lb, logTable a = some la → logTable b = some lb →
      gmul a b = expTable ((la + lb) % 255))) ∧
  (∀ a b c : Byte, gmul (gmul a b) c = gmul a (gmul b c) ∧
    gmul a (b ^^^ c) = gmul a b ^^^ gmul a c)

/-- R98: `GEXP` reads its index signed and never faults. -/
def Obligations.GexpLooksUpSignedIndex : Prop :=
  LowBitsZero 0x10 16 ∧ ∀ a b : XReg,
    WordOf (.gexp a b) (wordR 0x10 a b 0 0) ∧
    ∀ s : State, s.faulted = false →
      exec (.gexp a b) s =
        .next (s.setX a (BitVec.ofNat 32 (expTable ((s.getX b).toInt % 255).toNat).toNat))

/-- R99: `GLOG` faults on a value above 255, then on 0, else writes the logarithm. -/
def Obligations.GlogLooksUpLogarithm : Prop :=
  LowBitsZero 0x11 16 ∧ ∀ a b : XReg,
    WordOf (.glog a b) (wordR 0x11 a b 0 0) ∧
    ∀ s : State, s.faulted = false →
      let v := (s.getX b).toNat
      (255 < v → Raises (.glog a b) (wordR 0x11 a b 0 0) s .invalidArgument v) ∧
      (v = 0 → Raises (.glog a b) (wordR 0x11 a b 0 0) s .logOfZero 0) ∧
      (1 ≤ v → v ≤ 255 → ∃ l ≤ 254, logTable (BitVec.ofNat 8 v) = some l ∧
        exec (.glog a b) s = .next (s.setX a (BitVec.ofNat 32 l)))

/-- R100: `GADD` is the exclusive or of two field element operands, checked in order. -/
def Obligations.GaddIsExclusiveOr : Prop :=
  LowBitsZero 0x12 12 ∧ ∀ a b c : XReg,
    WordOf (.gadd a b c) (wordR 0x12 a b c 0) ∧
    ∀ s : State, s.faulted = false →
      let v1 := (s.getX b).toNat
      let v2 := (s.getX c).toNat
      (255 < v1 → Raises (.gadd a b c) (wordR 0x12 a b c 0) s .invalidArgument v1) ∧
      (v1 ≤ 255 → 255 < v2 → Raises (.gadd a b c) (wordR 0x12 a b c 0) s .invalidArgument v2) ∧
      (v1 ≤ 255 → v2 ≤ 255 →
        exec (.gadd a b c) s = .next (s.setX a (BitVec.ofNat 32 (v1 ^^^ v2))))

/-- R101: `GMUL` is the field product of two field element operands, checked in order. -/
def Obligations.GmulIsFieldProductOfOperands : Prop :=
  LowBitsZero 0x13 12 ∧ ∀ a b c : XReg,
    WordOf (.gmul a b c) (wordR 0x13 a b c 0) ∧
    ∀ s : State, s.faulted = false →
      let v1 := (s.getX b).toNat
      let v2 := (s.getX c).toNat
      (255 < v1 → Raises (.gmul a b c) (wordR 0x13 a b c 0) s .invalidArgument v1) ∧
      (v1 ≤ 255 → 255 < v2 → Raises (.gmul a b c) (wordR 0x13 a b c 0) s .invalidArgument v2) ∧
      (v1 ≤ 255 → v2 ≤ 255 →
        exec (.gmul a b c) s = .next (s.setX a
          (BitVec.ofNat 32 (gmul (BitVec.ofNat 8 v1) (BitVec.ofNat 8 v2)).toNat)))

/-! ## Polynomial functions (41_polynomial.md) -/

/-- R111: `construct` drops the coefficients before the first nonzero one and appends `shift` zeros. -/
def Obligations.ConstructTrimsAndShifts : Prop :=
  ∀ (c : List Byte) (shift : Nat), ∃ off ≤ c.length,
    (∀ k < off, c.getD k 0 = 0) ∧ (off < c.length → c.getD off 0 ≠ 0) ∧
    construct c shift = c.drop off ++ List.replicate shift 0 ∧
    (construct c shift).length = c.length - off + shift

/-- R117: `pmul` is the convolution over GF(256), untrimmed and commutative. -/
def Obligations.PmulIsConvolution : Prop :=
  ∀ a b : Poly, a ≠ [] → b ≠ [] →
    (pmul a b).length = a.length + b.length - 1 ∧
    (∀ k < a.length + b.length - 1, (pmul a b)[k]? = some (convolution a b k)) ∧
    (a.getD 0 0 ≠ 0 → b.getD 0 0 ≠ 0 →
      (pmul a b).head? = some (gmul (a.getD 0 0) (b.getD 0 0)) ∧
      gmul (a.getD 0 0) (b.getD 0 0) ≠ 0) ∧
    ((∀ v ∈ a, v = 0) ∨ (∀ v ∈ b, v = 0) →
      pmul a b = List.replicate (a.length + b.length - 1) 0) ∧
    pmul a b = pmul b a

/-- R119, pass by pass: the faults, the early return, and one pass of the division, which shortens the
dividend. The model's bound on the number of passes (log 12) does not show. -/
def Obligations.PmodRunsPassByPass : Prop :=
  ∀ cur div : Poly,
    (div = [] → pmod cur div = .error ⟨.indexRange, 0⟩) ∧
    (div ≠ [] → cur.length < div.length → pmod cur div = .ok cur) ∧
    (div ≠ [] → div.length ≤ cur.length → cur.getD 0 0 = 0 ∨ div.getD 0 0 = 0 →
      pmod cur div = .error ⟨.logOfZero, 0⟩) ∧
    (div ≠ [] → div.length ≤ cur.length →
      ∀ lc ld, logTable (cur.getD 0 0) = some lc → logTable (div.getD 0 0) = some ld →
        let q := expTable (((lc : Int) - (ld : Int)) % 255).toNat
        pmod cur div = pmod (construct (passResult cur div q) 0) div ∧
        (construct (passResult cur div q) 0).length < cur.length)

/-- R119: for a divisor with nonzero leading coefficient the result is the remainder of the polynomial
division: shorter than the divisor, trimmed if a pass ran, and `cur = q · div + remainder`. -/
def Obligations.PmodIsTheDivisionRemainder : Prop :=
  ∀ cur div m : Poly, div.getD 0 0 ≠ 0 → pmod cur div = .ok m →
    m.length < div.length ∧
    (div.length ≤ cur.length → m.head? ≠ some 0 ∧
      ∃ q : Poly, q.length = cur.length - div.length + 1 ∧
        cur = addAligned (pmul q div) (List.replicate (cur.length - m.length) 0 ++ m))

/-- R121: `pgen` is the product of the factors `x + α^i`, monic, of length `ec + 1`, with constant
term `α^(0+1+…+(ec-1))`. -/
def Obligations.PgenIsTheMonicProduct : Prop :=
  pgen 0 = [0x01] ∧ ∀ ec : Nat,
    pgen (ec + 1) = pmul (pgen ec) [0x01, gexp ec] ∧ (pgen ec).length = ec + 1 ∧
    (pgen ec).head? = some 0x01 ∧ (pgen ec).getLast? = some (gexp (ec * (ec - 1) / 2 : Nat))

/-! ## Polynomial commands -/

/-- R113: `PLD` constructs a polynomial from memory, after its range and capacity checks. -/
def Obligations.PldConstructsFromMemory : Prop :=
  LowBitsZero 0x20 8 ∧ PolyField 0x20 20 ∧ ∀ (a : PReg) (b c d : XReg),
    WordOf (.pld a b c d) (wordR 0x20 a b c d) ∧
    ∀ s : State, s.faulted = false →
      let addr := (s.getX b).toNat
      let count := (s.getX c).toNat
      let shift := (s.getX d).toNat
      let p := construct (s.memRead addr count) shift
      (¬ InRange s addr count →
        Raises (.pld a b c d) (wordR 0x20 a b c d) s .memRange addr) ∧
      (InRange s addr count → s.params.lmax < p.length →
        Raises (.pld a b c d) (wordR 0x20 a b c d) s .capacity p.length) ∧
      (InRange s addr count → p.length ≤ s.params.lmax →
        exec (.pld a b c d) s = .next (s.setP a p))

/-- R114: `PST` stores the coefficients, index 0 at the lowest address. -/
def Obligations.PstStoresCoefficients : Prop :=
  LowBitsZero 0x21 16 ∧ PolyField 0x21 20 ∧ ∀ (a : PReg) (b : XReg),
    WordOf (.pst a b) (wordR 0x21 a b 0 0) ∧
    ∀ s : State, s.faulted = false →
      let addr := (s.getX b).toNat
      (¬ InRange s addr (s.getP a).length →
        Raises (.pst a b) (wordR 0x21 a b 0 0) s .memRange addr) ∧
      (InRange s addr (s.getP a).length →
        exec (.pst a b) s = .next (s.memWrite addr (s.getP a)))

/-- R115: `PLEN` writes the length. -/
def Obligations.PlenWritesLength : Prop :=
  LowBitsZero 0x22 16 ∧ PolyField 0x22 16 ∧ ∀ (a : XReg) (b : PReg),
    WordOf (.plen a b) (wordR 0x22 a b 0 0) ∧
    ∀ s : State, s.faulted = false →
      exec (.plen a b) s = .next (s.setX a (BitVec.ofNat 32 (s.getP b).length))

/-- R116: `PIDX` reads one coefficient, or raises `IndexRange`. -/
def Obligations.PidxReadsCoefficient : Prop :=
  LowBitsZero 0x23 12 ∧ PolyField 0x23 16 ∧ ∀ (a : XReg) (b : PReg) (c : XReg),
    WordOf (.pidx a b c) (wordR 0x23 a b c 0) ∧
    ∀ s : State, s.faulted = false →
      let i := (s.getX c).toNat
      ((s.getP b).length ≤ i → Raises (.pidx a b c) (wordR 0x23 a b c 0) s .indexRange i) ∧
      (∀ h : i < (s.getP b).length,
        exec (.pidx a b c) s = .next (s.setX a (BitVec.ofNat 32 ((s.getP b)[i]'h).toNat)))

/-- R118: `PMUL` writes the product, after the checks for an empty operand and for capacity. -/
def Obligations.PmulWritesProduct : Prop :=
  LowBitsZero 0x24 12 ∧ PolyField 0x24 20 ∧ PolyField 0x24 16 ∧ PolyField 0x24 12 ∧
  ∀ a b c : PReg,
    WordOf (.pmul a b c) (wordR 0x24 a b c 0) ∧
    ∀ s : State, s.faulted = false →
      let la := (s.getP b).length
      let lb := (s.getP c).length
      (la = 0 ∨ lb = 0 → Raises (.pmul a b c) (wordR 0x24 a b c 0) s .invalidArgument 0) ∧
      (la ≠ 0 → lb ≠ 0 → s.params.lmax < la + lb - 1 →
        Raises (.pmul a b c) (wordR 0x24 a b c 0) s .capacity (la + lb - 1)) ∧
      (la ≠ 0 → lb ≠ 0 → la + lb - 1 ≤ s.params.lmax →
        exec (.pmul a b c) s = .next (s.setP a (pmul (s.getP b) (s.getP c))))

/-- R120: `PMOD` faults on an empty divisor and on a zero leading coefficient of dividend or divisor
when a pass is due; else it writes the result of `pmod`, shorter than the divisor as R119 derives. -/
def Obligations.PmodWritesRemainder : Prop :=
  LowBitsZero 0x25 12 ∧ PolyField 0x25 20 ∧ PolyField 0x25 16 ∧ PolyField 0x25 12 ∧
  ∀ a b c : PReg,
    WordOf (.pmod a b c) (wordR 0x25 a b c 0) ∧
    ∀ s : State, s.faulted = false →
      let cur := s.getP b
      let div := s.getP c
      (div = [] → Raises (.pmod a b c) (wordR 0x25 a b c 0) s .indexRange 0) ∧
      (div ≠ [] → div.length ≤ cur.length → cur.getD 0 0 = 0 ∨ div.getD 0 0 = 0 →
        Raises (.pmod a b c) (wordR 0x25 a b c 0) s .logOfZero 0) ∧
      (cur.length < div.length → exec (.pmod a b c) s = .next (s.setP a cur)) ∧
      (div ≠ [] → div.length ≤ cur.length → cur.getD 0 0 ≠ 0 → div.getD 0 0 ≠ 0 →
        ∃ m, pmod cur div = .ok m ∧ m.length < div.length ∧
          exec (.pmod a b c) s = .next (s.setP a m))

/-- R122: `PGEN` writes the generator polynomial, or raises `Capacity`. -/
def Obligations.PgenWritesGenerator : Prop :=
  LowBitsZero 0x26 16 ∧ PolyField 0x26 20 ∧ ∀ (a : PReg) (b : XReg),
    WordOf (.pgen a b) (wordR 0x26 a b 0 0) ∧
    ∀ s : State, s.faulted = false →
      let ec := (s.getX b).toNat
      (s.params.lmax < ec + 1 → Raises (.pgen a b) (wordR 0x26 a b 0 0) s .capacity (ec + 1)) ∧
      (ec + 1 ≤ s.params.lmax → exec (.pgen a b) s = .next (s.setP a (pgen ec)))

/-! ## Block functions (42_block_ecc.md) -/

/-- R132 (a), (b), (c), (d): `ecc` never faults and gives exactly `ec` bytes; all-zero data give
zeros. -/
def Obligations.EccNeverFaults : Prop :=
  ∀ (d : List Byte) (ec : Nat), ∃ e, ecc d ec = .ok e ∧ e.length = ec ∧
    ((∀ v ∈ d, v = 0) → e = List.replicate ec 0)

/-- R132 (e): data followed by its ECC, read as a polynomial, is a multiple of the generator. -/
def Obligations.DataWithEccIsMultipleOfGenerator : Prop :=
  ∀ (d e : List Byte) (ec : Nat), ecc d ec = .ok e →
    pmod (construct (d ++ e) 0) (pgen ec) = .ok []

/-- R132 (f): leading zero bytes of the data do not change the ECC. -/
def Obligations.EccIgnoresLeadingZeros : Prop :=
  ∀ (d : List Byte) (ec k : Nat), ecc (List.replicate k 0 ++ d) ec = ecc d ec

/-- R132 (g): `ecc` is linear over GF(2). -/
def Obligations.EccIsLinear : Prop :=
  ∀ (d1 d2 e1 e2 : List Byte) (ec : Nat), d1.length = d2.length →
    ecc d1 ec = .ok e1 → ecc d2 ec = .ok e2 →
    ecc (List.zipWith (· ^^^ ·) d1 d2) ec = .ok (List.zipWith (· ^^^ ·) e1 e2)

/-- R137: the data phase column by column, then the ECC phase column by column. -/
def Obligations.InterleaveIsTwoPhases : Prop :=
  ∀ ds es : List (List Byte), interleave ds es = phase ds ++ phase es

/-- R138, which the spec derives from R137: the stream has every byte exactly once and the summed
length; blocks of equal length stand in column-major order in each phase; one block gives its data and
then its ECC. -/
def Obligations.InterleaveKeepsEveryByte : Prop :=
  ∀ ds es : List (List Byte),
    (interleave ds es).Perm (ds.flatten ++ es.flatten) ∧
    (interleave ds es).length = (ds.map List.length).sum + (es.map List.length).sum ∧
    (∀ k, (∀ q ∈ ds, q.length = k) → ∀ i < k, ∀ r < ds.length,
      (interleave ds es)[i * ds.length + r]? = (ds.getD r [])[i]?) ∧
    (∀ k, (∀ q ∈ es, q.length = k) → ∀ i < k, ∀ r < es.length,
      (interleave ds es)[(ds.map List.length).sum + i * es.length + r]? = (es.getD r [])[i]?) ∧
    (∀ d e, ds = [d] → es = [e] → interleave ds es = d ++ e)

/-! ## Block commands -/

/-- R133: `ECC1` stores the ECC of one block, after two capacity and two range checks. -/
def Obligations.Ecc1StoresBlockEcc : Prop :=
  LowBitsZero 0x30 8 ∧ ∀ a b c d : XReg,
    WordOf (.ecc1 a b c d) (wordR 0x30 a b c d) ∧
    ∀ s : State, s.faulted = false →
      let daddr := (s.getX a).toNat
      let dcount := (s.getX b).toNat
      let ec := (s.getX c).toNat
      let eaddr := (s.getX d).toNat
      let raises := Raises (.ecc1 a b c d) (wordR 0x30 a b c d) s
      (s.params.lmax < ec + 1 → raises .capacity (ec + 1)) ∧
      (ec + 1 ≤ s.params.lmax → s.params.lmax < dcount + ec → raises .capacity (dcount + ec)) ∧
      (ec + 1 ≤ s.params.lmax → dcount + ec ≤ s.params.lmax → ¬ InRange s daddr dcount →
        raises .memRange daddr) ∧
      (ec + 1 ≤ s.params.lmax → dcount + ec ≤ s.params.lmax → InRange s daddr dcount →
        ¬ InRange s eaddr ec → raises .memRange eaddr) ∧
      (ec + 1 ≤ s.params.lmax → dcount + ec ≤ s.params.lmax → InRange s daddr dcount →
        InRange s eaddr ec →
        ∃ e, ecc (s.memRead daddr dcount) ec = .ok e ∧ e.length = ec ∧
          exec (.ecc1 a b c d) s = .next (s.memWrite eaddr e))

/-- R136: `ECCB` stores the ECC of every block of the table, packed, after its checks in order. -/
def Obligations.EccbStoresPackedEcc : Prop :=
  LowBitsZero 0x31 24 ∧ WordOf .eccb (wordR 0x31 0 0 0 0) ∧
  ∀ s : State, s.faulted = false →
    BlockFaults .eccb (wordR 0x31 0 0 0 0) s ∧
    (BlocksPass s → ∃ es : List (List Byte), es.length = nblk s ∧
      (∀ r < nblk s, ∃ e, es[r]? = some e ∧ e.length = ec s r ∧
        ecc (s.memRead (s.dbase.toNat + dataBefore s r) (data s r)) (ec s r) = .ok e) ∧
      exec .eccb s = .next (s.memWrite s.ebase.toNat es.flatten))

/-- R139: `ILV` stores the interleaved stream and writes its length, after the checks of `ECCB` and
its own. -/
def Obligations.IlvStoresInterleavedStream : Prop :=
  LowBitsZero 0x32 20 ∧ ∀ a : XReg,
    WordOf (.ilv a) (wordR 0x32 a 0 0 0) ∧
    ∀ s : State, s.faulted = false →
      let n := dataBefore s (nblk s) + ecBefore s (nblk s)
      BlockFaults (.ilv a) (wordR 0x32 a 0 0 0) s ∧
      (BlocksPass s → ¬ InRange s s.obase.toNat n →
        Raises (.ilv a) (wordR 0x32 a 0 0 0) s .memRange s.obase.toNat) ∧
      (BlocksPass s → InRange s s.obase.toNat n →
        exec (.ilv a) s = .next ((s.memWrite s.obase.toNat (interleave
          ((List.range (nblk s)).map fun r =>
            s.memRead (s.dbase.toNat + dataBefore s r) (data s r))
          ((List.range (nblk s)).map fun r =>
            s.memRead (s.ebase.toNat + ecBefore s r) (ec s r)))).setX a (BitVec.ofNat 32 n)))
end

