-- ==== Sys2Proof/Laws/Decode.lean ====
section
/-! SUPPORT. The fields of a format, and what the decoder's checks let through. -/

namespace Sys2Proof

/-! Sequencing of checks. -/

@[simp] theorem legal_bind {α β : Type} (a : α) (f : α → Except Illegal β) :
    ((Except.ok a : Except Illegal α) >>= f) = f a := rfl

@[simp] theorem illegal_bind {α β : Type} (e : Illegal) (f : α → Except Illegal β) :
    ((Except.error e : Except Illegal α) >>= f) = .error e := rfl

theorem legal_bind_iff {α β : Type} {x : Except Illegal α} {f : α → Except Illegal β} {b : β} :
    (x >>= f) = .ok b ↔ ∃ a, x = .ok a ∧ f a = .ok b := by
  cases x <;> simp

/-! The words of the formats as numbers. -/

theorem toNat_formatR (op : BitVec 8) (a b c d : BitVec 4) :
    (formatR op a b c d).toNat =
      op.toNat * 2 ^ 24 + a.toNat * 2 ^ 20 + b.toNat * 2 ^ 16 + c.toNat * 2 ^ 12 + d.toNat * 2 ^ 8 := by
  have h1 := op.isLt; have h2 := a.isLt; have h3 := b.isLt; have h4 := c.isLt; have h5 := d.isLt
  unfold formatR
  simp only [BitVec.toNat_append]
  rw [← Nat.shiftLeft_add_eq_or_of_lt (by decide), ← Nat.shiftLeft_add_eq_or_of_lt h5,
    ← Nat.shiftLeft_add_eq_or_of_lt h4, ← Nat.shiftLeft_add_eq_or_of_lt h3,
    ← Nat.shiftLeft_add_eq_or_of_lt h2]
  simp only [Nat.shiftLeft_eq, BitVec.toNat_zero]
  omega

theorem toNat_formatI (op : BitVec 8) (a : BitVec 4) (imm : BitVec 16) :
    (formatI op a imm).toNat = op.toNat * 2 ^ 24 + a.toNat * 2 ^ 20 + imm.toNat := by
  have h1 := op.isLt; have h2 := a.isLt; have h3 := imm.isLt
  unfold formatI
  simp only [BitVec.toNat_append]
  rw [← Nat.shiftLeft_add_eq_or_of_lt h3, ← Nat.shiftLeft_add_eq_or_of_lt (by decide),
    ← Nat.shiftLeft_add_eq_or_of_lt h2]
  simp only [Nat.shiftLeft_eq, BitVec.toNat_zero]
  omega

/-- A field as a number: the slice of R12. -/
theorem toNat_field (w : Word) (lo n : Nat) :
    (w.extractLsb' lo n).toNat = w.toNat / 2 ^ lo % 2 ^ n := by
  simp [BitVec.extractLsb'_toNat, Nat.shiftRight_eq_div_pow]

theorem toNat_fieldOp (w : Word) : (fieldOp w).toNat = w.toNat / 2 ^ 24 % 2 ^ 8 := toNat_field w 24 8
theorem toNat_fieldA (w : Word) : (fieldA w).toNat = w.toNat / 2 ^ 20 % 2 ^ 4 := toNat_field w 20 4
theorem toNat_fieldB (w : Word) : (fieldB w).toNat = w.toNat / 2 ^ 16 % 2 ^ 4 := toNat_field w 16 4
theorem toNat_fieldC (w : Word) : (fieldC w).toNat = w.toNat / 2 ^ 12 % 2 ^ 4 := toNat_field w 12 4
theorem toNat_fieldD (w : Word) : (fieldD w).toNat = w.toNat / 2 ^ 8 % 2 ^ 4 := toNat_field w 8 4
theorem toNat_fieldZ (w : Word) : (fieldZ w).toNat = w.toNat / 2 ^ 0 % 2 ^ 8 := toNat_field w 0 8
theorem toNat_fieldZb (w : Word) : (fieldZb w).toNat = w.toNat / 2 ^ 16 % 2 ^ 4 := toNat_field w 16 4
theorem toNat_fieldImm (w : Word) : (fieldImm w).toNat = w.toNat / 2 ^ 0 % 2 ^ 16 :=
  toNat_field w 0 16

/-! Every field of an encoded word reads back (R71, R72). -/

section FormatR
variable (op : BitVec 8) (a b c d : BitVec 4)

@[simp] theorem fieldOp_formatR : fieldOp (formatR op a b c d) = op := by
  apply BitVec.eq_of_toNat_eq; rw [toNat_fieldOp, toNat_formatR]; omega
@[simp] theorem fieldA_formatR : fieldA (formatR op a b c d) = a := by
  apply BitVec.eq_of_toNat_eq; rw [toNat_fieldA, toNat_formatR]; omega
@[simp] theorem fieldB_formatR : fieldB (formatR op a b c d) = b := by
  apply BitVec.eq_of_toNat_eq; rw [toNat_fieldB, toNat_formatR]; omega
@[simp] theorem fieldC_formatR : fieldC (formatR op a b c d) = c := by
  apply BitVec.eq_of_toNat_eq; rw [toNat_fieldC, toNat_formatR]; omega
@[simp] theorem fieldD_formatR : fieldD (formatR op a b c d) = d := by
  apply BitVec.eq_of_toNat_eq; rw [toNat_fieldD, toNat_formatR]; omega
@[simp] theorem fieldZ_formatR : fieldZ (formatR op a b c d) = 0 := by
  apply BitVec.eq_of_toNat_eq
  rw [toNat_fieldZ, toNat_formatR]; show _ = 0; omega

end FormatR

section FormatI
variable (op : BitVec 8) (a : BitVec 4) (imm : BitVec 16)

@[simp] theorem fieldOp_formatI : fieldOp (formatI op a imm) = op := by
  apply BitVec.eq_of_toNat_eq; rw [toNat_fieldOp, toNat_formatI]; omega
@[simp] theorem fieldA_formatI : fieldA (formatI op a imm) = a := by
  apply BitVec.eq_of_toNat_eq; rw [toNat_fieldA, toNat_formatI]; omega
@[simp] theorem fieldZb_formatI : fieldZb (formatI op a imm) = 0 := by
  apply BitVec.eq_of_toNat_eq
  rw [toNat_fieldZb, toNat_formatI]; show _ = 0; omega
@[simp] theorem fieldImm_formatI : fieldImm (formatI op a imm) = imm := by
  apply BitVec.eq_of_toNat_eq; rw [toNat_fieldImm, toNat_formatI]; omega

end FormatI

/-- A format R word is put together from its fields. -/
theorem formatR_fields {w : Word} (h : fieldZ w = 0) :
    formatR (fieldOp w) (fieldA w) (fieldB w) (fieldC w) (fieldD w) = w := by
  apply BitVec.eq_of_toNat_eq
  have hz : (fieldZ w).toNat = 0 := congrArg BitVec.toNat h
  have hw := w.isLt
  rw [toNat_fieldZ] at hz
  rw [toNat_formatR, toNat_fieldOp, toNat_fieldA, toNat_fieldB, toNat_fieldC, toNat_fieldD]
  omega

/-- A format I word is put together from its fields. -/
theorem formatI_fields {w : Word} (h : fieldZb w = 0) :
    formatI (fieldOp w) (fieldA w) (fieldImm w) = w := by
  apply BitVec.eq_of_toNat_eq
  have hz : (fieldZb w).toNat = 0 := congrArg BitVec.toNat h
  have hw := w.isLt
  rw [toNat_fieldZb] at hz
  rw [toNat_formatI, toNat_fieldOp, toNat_fieldA, toNat_fieldImm]
  omega

/-! The checks. -/

theorem mustBeZero_ok_iff {n : Nat} {v : BitVec n} {u : Unit} : mustBeZero v = .ok u ↔ v = 0 := by
  unfold mustBeZero; split <;> simp_all

theorem zbMustBeZero_ok_iff {w : Word} {u : Unit} : zbMustBeZero w = .ok u ↔ fieldZb w = 0 := by
  unfold zbMustBeZero; split <;> simp_all

@[simp] theorem mustBeZero_zero {n : Nat} : mustBeZero (0#n) = .ok () := if_pos rfl

@[simp] theorem xregOf_xfield (r : XReg) : xregOf (xfield r) = r := rfl
@[simp] theorem xfield_xregOf (v : BitVec 4) : xfield (xregOf v) = v := rfl
@[simp] theorem toNat_xfield (r : XReg) : (xfield r).toNat = r.val := rfl

@[simp] theorem toNat_pfield (r : PReg) : (pfield r).toNat = r.val := by revert r; decide

theorem pregOf_ok_iff {v : BitVec 4} {r : PReg} : pregOf v = .ok r ↔ v = pfield r := by
  revert v r; decide

@[simp] theorem pregOf_pfield (r : PReg) : pregOf (pfield r) = .ok r := pregOf_ok_iff.2 rfl

theorem csrOfNumber_some_iff {n : Nat} {c : Csr} :
    csrOfNumber n = some c ↔ n = c.number.toNat := by
  constructor
  · intro h
    unfold csrOfNumber at h
    split at h <;> first | (cases h; rfl) | cases h
  · rintro rfl; cases c <;> rfl

theorem readableCsr_ok_iff {imm : BitVec 16} {c : Csr} :
    readableCsr imm = .ok c ↔ imm = c.number := by
  have key := csrOfNumber_some_iff (n := imm.toNat) (c := c)
  rw [← BitVec.toNat_inj, ← key]
  unfold readableCsr
  split <;> simp_all

theorem writableCsr_ok_iff {imm : BitVec 16} {c : Csr} :
    writableCsr imm = .ok c ↔ imm = c.number ∧ c.writable = true := by
  have key := csrOfNumber_some_iff (n := imm.toNat) (c := c)
  rw [← BitVec.toNat_inj, ← key]
  unfold writableCsr
  cases h : csrOfNumber imm.toNat with
  | none => simp
  | some d =>
    by_cases hd : d.writable = true
    · simp only [hd, if_true, Except.ok.injEq, Option.some.injEq]
      exact ⟨fun e => ⟨e, e ▸ hd⟩, And.left⟩
    · simp only [hd, Option.some.injEq]
      refine ⟨fun e => (by cases e), ?_⟩
      rintro ⟨rfl, hc⟩; exact absurd hc hd

end Sys2Proof
end

