-- ==== Sys2Proof/Laws/State.lean ====
section
/-! SUPPORT. One lemma per field per update of the state, so that no proof unfolds a record update. -/

namespace Sys2Proof.Machine

variable (s : State) (i j : XReg) (k l : PReg) (v : Word) (c : Poly) (a : Nat) (bs : List Byte)
  (t : Trap) (w : Word) (q : Csr)

/-! `setX`. -/

@[simp] theorem State.setX_p : (s.setX i v).p = s.p := rfl
@[simp] theorem State.setX_status : (s.setX i v).status = s.status := rfl
@[simp] theorem State.setX_cause : (s.setX i v).cause = s.cause := rfl
@[simp] theorem State.setX_finfo : (s.setX i v).finfo = s.finfo := rfl
@[simp] theorem State.setX_fcmd : (s.setX i v).fcmd = s.fcmd := rfl
@[simp] theorem State.setX_tbase : (s.setX i v).tbase = s.tbase := rfl
@[simp] theorem State.setX_nblk : (s.setX i v).nblk = s.nblk := rfl
@[simp] theorem State.setX_dbase : (s.setX i v).dbase = s.dbase := rfl
@[simp] theorem State.setX_ebase : (s.setX i v).ebase = s.ebase := rfl
@[simp] theorem State.setX_obase : (s.setX i v).obase = s.obase := rfl
@[simp] theorem State.setX_mem : (s.setX i v).mem = s.mem := rfl
@[simp] theorem State.setX_params : (s.setX i v).params = s.params := rfl
@[simp] theorem State.setX_epoch : (s.setX i v).epoch = s.epoch := rfl
@[simp] theorem State.setX_inbox : (s.setX i v).inbox = s.inbox := rfl
@[simp] theorem State.setX_faulted : (s.setX i v).faulted = s.faulted := rfl
@[simp] theorem State.setX_getP : (s.setX i v).getP k = s.getP k := rfl
@[simp] theorem State.setX_readByte : (s.setX i v).readByte a = s.readByte a := rfl
@[simp] theorem State.setX_getCsr : (s.setX i v).getCsr q = s.getCsr q := by cases q <;> rfl

theorem State.getX_setX : (s.setX i v).getX j = if i = j then v else s.getX j := by
  simp [State.getX, State.setX, Vector.getElem_set, Fin.ext_iff]

@[simp] theorem State.getX_setX_same : (s.setX i v).getX i = v := by simp [State.getX_setX]

theorem State.getX_setX_other (h : j ≠ i) : (s.setX i v).getX j = s.getX j := by
  simp [State.getX_setX, Ne.symm h]

/-! `setP`. -/

@[simp] theorem State.setP_x : (s.setP k c).x = s.x := rfl
@[simp] theorem State.setP_status : (s.setP k c).status = s.status := rfl
@[simp] theorem State.setP_cause : (s.setP k c).cause = s.cause := rfl
@[simp] theorem State.setP_finfo : (s.setP k c).finfo = s.finfo := rfl
@[simp] theorem State.setP_fcmd : (s.setP k c).fcmd = s.fcmd := rfl
@[simp] theorem State.setP_tbase : (s.setP k c).tbase = s.tbase := rfl
@[simp] theorem State.setP_nblk : (s.setP k c).nblk = s.nblk := rfl
@[simp] theorem State.setP_dbase : (s.setP k c).dbase = s.dbase := rfl
@[simp] theorem State.setP_ebase : (s.setP k c).ebase = s.ebase := rfl
@[simp] theorem State.setP_obase : (s.setP k c).obase = s.obase := rfl
@[simp] theorem State.setP_mem : (s.setP k c).mem = s.mem := rfl
@[simp] theorem State.setP_params : (s.setP k c).params = s.params := rfl
@[simp] theorem State.setP_epoch : (s.setP k c).epoch = s.epoch := rfl
@[simp] theorem State.setP_inbox : (s.setP k c).inbox = s.inbox := rfl
@[simp] theorem State.setP_faulted : (s.setP k c).faulted = s.faulted := rfl
@[simp] theorem State.setP_getX : (s.setP k c).getX i = s.getX i := rfl
@[simp] theorem State.setP_readByte : (s.setP k c).readByte a = s.readByte a := rfl
@[simp] theorem State.setP_getCsr : (s.setP k c).getCsr q = s.getCsr q := by cases q <;> rfl

theorem State.getP_setP : (s.setP k c).getP l = if k = l then c else s.getP l := by
  simp [State.getP, State.setP, Vector.getElem_set, Fin.ext_iff]

@[simp] theorem State.getP_setP_same : (s.setP k c).getP k = c := by simp [State.getP_setP]

theorem State.getP_setP_other (h : l ≠ k) : (s.setP k c).getP l = s.getP l := by
  simp [State.getP_setP, Ne.symm h]

/-! `setCsr`: a read-only CSR keeps its value, so every field but the five bases does too. -/

@[simp] theorem State.setCsr_x : (s.setCsr q v).x = s.x := by cases q <;> rfl
@[simp] theorem State.setCsr_p : (s.setCsr q v).p = s.p := by cases q <;> rfl
@[simp] theorem State.setCsr_status : (s.setCsr q v).status = s.status := by cases q <;> rfl
@[simp] theorem State.setCsr_cause : (s.setCsr q v).cause = s.cause := by cases q <;> rfl
@[simp] theorem State.setCsr_finfo : (s.setCsr q v).finfo = s.finfo := by cases q <;> rfl
@[simp] theorem State.setCsr_fcmd : (s.setCsr q v).fcmd = s.fcmd := by cases q <;> rfl
@[simp] theorem State.setCsr_mem : (s.setCsr q v).mem = s.mem := by cases q <;> rfl
@[simp] theorem State.setCsr_params : (s.setCsr q v).params = s.params := by cases q <;> rfl
@[simp] theorem State.setCsr_epoch : (s.setCsr q v).epoch = s.epoch := by cases q <;> rfl
@[simp] theorem State.setCsr_inbox : (s.setCsr q v).inbox = s.inbox := by cases q <;> rfl
@[simp] theorem State.setCsr_faulted : (s.setCsr q v).faulted = s.faulted := by cases q <;> rfl
@[simp] theorem State.setCsr_getX : (s.setCsr q v).getX i = s.getX i := by cases q <;> rfl
@[simp] theorem State.setCsr_getP : (s.setCsr q v).getP k = s.getP k := by cases q <;> rfl
@[simp] theorem State.setCsr_readByte : (s.setCsr q v).readByte a = s.readByte a := by
  cases q <;> rfl

theorem State.getCsr_setCsr (r : Csr) :
    (s.setCsr q v).getCsr r = if q = r ∧ q.writable = true then v else s.getCsr r := by
  cases q <;> cases r <;> rfl

/-! `memWrite`. -/

@[simp] theorem State.memWrite_x : (s.memWrite a bs).x = s.x := rfl
@[simp] theorem State.memWrite_p : (s.memWrite a bs).p = s.p := rfl
@[simp] theorem State.memWrite_status : (s.memWrite a bs).status = s.status := rfl
@[simp] theorem State.memWrite_cause : (s.memWrite a bs).cause = s.cause := rfl
@[simp] theorem State.memWrite_finfo : (s.memWrite a bs).finfo = s.finfo := rfl
@[simp] theorem State.memWrite_fcmd : (s.memWrite a bs).fcmd = s.fcmd := rfl
@[simp] theorem State.memWrite_tbase : (s.memWrite a bs).tbase = s.tbase := rfl
@[simp] theorem State.memWrite_nblk : (s.memWrite a bs).nblk = s.nblk := rfl
@[simp] theorem State.memWrite_dbase : (s.memWrite a bs).dbase = s.dbase := rfl
@[simp] theorem State.memWrite_ebase : (s.memWrite a bs).ebase = s.ebase := rfl
@[simp] theorem State.memWrite_obase : (s.memWrite a bs).obase = s.obase := rfl
@[simp] theorem State.memWrite_mem : (s.memWrite a bs).mem = memInsertAll s.mem a bs := rfl
@[simp] theorem State.memWrite_params : (s.memWrite a bs).params = s.params := rfl
@[simp] theorem State.memWrite_epoch : (s.memWrite a bs).epoch = s.epoch := rfl
@[simp] theorem State.memWrite_inbox : (s.memWrite a bs).inbox = s.inbox := rfl
@[simp] theorem State.memWrite_faulted : (s.memWrite a bs).faulted = s.faulted := rfl
@[simp] theorem State.memWrite_getX : (s.memWrite a bs).getX i = s.getX i := rfl
@[simp] theorem State.memWrite_getP : (s.memWrite a bs).getP k = s.getP k := rfl
@[simp] theorem State.memWrite_getCsr : (s.memWrite a bs).getCsr q = s.getCsr q := by
  cases q <;> rfl

/-! `enterFault`. -/

@[simp] theorem State.enterFault_x : (s.enterFault t w).x = s.x := rfl
@[simp] theorem State.enterFault_p : (s.enterFault t w).p = s.p := rfl
@[simp] theorem State.enterFault_status : (s.enterFault t w).status = setFaultBit s.status := rfl
@[simp] theorem State.enterFault_cause : (s.enterFault t w).cause = t.cause.code := rfl
@[simp] theorem State.enterFault_finfo : (s.enterFault t w).finfo = BitVec.ofNat 32 t.info := rfl
@[simp] theorem State.enterFault_fcmd : (s.enterFault t w).fcmd = w := rfl
@[simp] theorem State.enterFault_tbase : (s.enterFault t w).tbase = s.tbase := rfl
@[simp] theorem State.enterFault_nblk : (s.enterFault t w).nblk = s.nblk := rfl
@[simp] theorem State.enterFault_dbase : (s.enterFault t w).dbase = s.dbase := rfl
@[simp] theorem State.enterFault_ebase : (s.enterFault t w).ebase = s.ebase := rfl
@[simp] theorem State.enterFault_obase : (s.enterFault t w).obase = s.obase := rfl
@[simp] theorem State.enterFault_mem : (s.enterFault t w).mem = s.mem := rfl
@[simp] theorem State.enterFault_params : (s.enterFault t w).params = s.params := rfl
@[simp] theorem State.enterFault_epoch : (s.enterFault t w).epoch = s.epoch := rfl
@[simp] theorem State.enterFault_inbox : (s.enterFault t w).inbox = s.inbox := rfl
@[simp] theorem State.enterFault_getX : (s.enterFault t w).getX i = s.getX i := rfl
@[simp] theorem State.enterFault_getP : (s.enterFault t w).getP k = s.getP k := rfl
@[simp] theorem State.enterFault_readByte : (s.enterFault t w).readByte a = s.readByte a := rfl

@[simp] theorem State.enterFault_faulted : (s.enterFault t w).faulted = true := by
  simp [State.faulted, setFaultBit]

/-! `afterReset`. -/

@[simp] theorem State.afterReset_params : s.afterReset.params = s.params := rfl
@[simp] theorem State.afterReset_epoch : s.afterReset.epoch = s.epoch + 1 := rfl
@[simp] theorem State.afterReset_inbox : s.afterReset.inbox = s.inbox := rfl
@[simp] theorem State.afterReset_mem : s.afterReset.mem = [] := rfl
@[simp] theorem State.afterReset_status : s.afterReset.status = 0 := rfl
@[simp] theorem State.afterReset_faulted : s.afterReset.faulted = false := by
  simp [State.faulted]
@[simp] theorem State.afterReset_x : s.afterReset.x = State.reset.x := rfl
@[simp] theorem State.afterReset_p : s.afterReset.p = State.reset.p := rfl
@[simp] theorem State.afterReset_getX : s.afterReset.getX i = 0 := by
  simp [State.getX, State.reset]
@[simp] theorem State.afterReset_getP : s.afterReset.getP k = [] := by
  simp [State.getP, State.reset]
@[simp] theorem State.afterReset_getCsr : s.afterReset.getCsr q = 0 := by cases q <;> rfl

end Sys2Proof.Machine
end

