-- ==== Sys2Proof/Laws/Memory.lean ====
section
/-! SUPPORT. The laws of the memory list: what a write lists, and that every operation keeps the
canonical form. -/

namespace Sys2Proof.Machine

@[simp] theorem memLookup_nil (a : Nat) : memLookup [] a = none := rfl

theorem memLookup_cons (k : Nat) (b : Byte) (m : Memory) (a : Nat) :
    memLookup ((k, b) :: m) a = if k = a then some b else memLookup m a := rfl

/-- Below every listed address nothing is listed. -/
theorem memLookup_below {m : Memory} {a : Nat} (h : ∀ c ∈ m, a < c.1) : memLookup m a = none := by
  induction m with
  | nil => rfl
  | cons c m ih =>
    have hc := h c (by simp)
    rw [memLookup_cons, if_neg (by omega)]
    exact ih fun d hd => h d (by simp [hd])

/-- The addresses a write lists. -/
theorem mem_memInsert {m : Memory} {a : Nat} {v : Byte} {c : Host.Cell}
    (h : c ∈ memInsert m a v) : c = (a, v) ∨ c ∈ m := by
  induction m with
  | nil => simpa [memInsert] using h
  | cons d m ih =>
    obtain ⟨k, b⟩ := d
    simp only [memInsert] at h
    split at h
    · simpa using h
    · split at h
      · rcases List.mem_cons.1 h with h | h
        · exact .inl h
        · exact .inr (by simp [h])
      · rcases List.mem_cons.1 h with h | h
        · exact .inr (by simp [h])
        · exact (ih h).imp_right (by simp +contextual)

/-- No entry is equal to what an unlisted address holds: every list has this half of `Memory.wf`. -/
theorem cells_listed (m : Memory) : ∀ c ∈ m, some c.2 ≠ Memory.unlisted := by
  intro c _; simp [Memory.unlisted]

theorem memInsert_rising {m : Memory} (a : Nat) (v : Byte)
    (h : m.Pairwise fun c d => c.1 < d.1) : (memInsert m a v).Pairwise fun c d => c.1 < d.1 := by
  induction m with
  | nil => simp [memInsert]
  | cons d m ih =>
    obtain ⟨k, b⟩ := d
    obtain ⟨hk, hm⟩ := List.pairwise_cons.1 h
    simp only [memInsert]
    split
    · rename_i hlt
      refine List.pairwise_cons.2 ⟨fun c hc => ?_, h⟩
      rcases List.mem_cons.1 hc with rfl | hc
      · exact hlt
      · exact lt_trans hlt (hk c hc)
    · split
      · rename_i _ heq
        subst heq
        exact List.pairwise_cons.2 ⟨hk, hm⟩
      · rename_i hge hne
        refine List.pairwise_cons.2 ⟨fun c hc => ?_, ih hm⟩
        rcases mem_memInsert hc with rfl | hc
        · simp only; omega
        · exact hk c hc

/-- A write keeps the canonical form. -/
theorem memInsert_wf {m : Memory} (a : Nat) (v : Byte) (h : Memory.wf m) :
    Memory.wf (memInsert m a v) :=
  ⟨memInsert_rising a v h.1, cells_listed _⟩

/-- A write of several bytes keeps the canonical form. -/
theorem memInsertAll_wf {m : Memory} (a : Nat) (bs : List Byte) (h : Memory.wf m) :
    Memory.wf (memInsertAll m a bs) := by
  induction bs generalizing m a with
  | nil => exact h
  | cons b bs ih => exact ih (a + 1) (memInsert_wf a b h)

/-- `MemWrite` keeps the canonical form. -/
theorem memWrite_wf {s : State} (a : Nat) (bs : List Byte) (h : Memory.wf s.mem) :
    Memory.wf (s.memWrite a bs).mem := memInsertAll_wf a bs h

/-- The reset memory has the canonical form. -/
theorem reset_mem_wf : Memory.wf State.reset.mem := by decide

/-- The addresses a write of several bytes lists. -/
theorem mem_memInsertAll {bs : List Byte} {m : Memory} {a : Nat} {c : Host.Cell}
    (h : c ∈ memInsertAll m a bs) : (a ≤ c.1 ∧ c.1 < a + bs.length) ∨ c ∈ m := by
  induction bs generalizing m a with
  | nil => exact .inr h
  | cons b bs ih =>
    rcases ih h with h | h
    · left; simp only [List.length_cons]; omega
    · rcases mem_memInsert h with rfl | h
      · left; simp
      · exact .inr h

/-- The byte a write records, read back (the last write wins; other addresses are untouched). -/
theorem memLookup_memInsert (m : Memory) (a b : Nat) (v : Byte) :
    memLookup (memInsert m a v) b = if a = b then some v else memLookup m b := by
  induction m with
  | nil => simp [memInsert, memLookup]
  | cons d m ih =>
    obtain ⟨k, c⟩ := d
    simp only [memInsert]
    split
    · simp [memLookup]
    · split
      · subst_vars
        simp only [memLookup]; split <;> simp_all
      · simp only [memLookup, ih]
        split <;> split <;> simp_all

/-- The bytes `MemRead` gives (R52). -/
@[simp] theorem State.memRead_length (s : State) (a n : Nat) : (s.memRead a n).length = n := by
  simp [State.memRead]

end Sys2Proof.Machine
end

