-- ==== Sys2Proof/Laws/Ops.lean ====
section
/-! SUPPORT. One lemma per shared operation: everything it can answer. -/

namespace Sys2Proof.Machine

/-! Sequencing of checks. -/

@[simp] theorem ok_bind {α β : Type} (a : α) (f : α → Except Trap β) :
    ((Except.ok a : Except Trap α) >>= f) = f a := rfl

@[simp] theorem error_bind {α β : Type} (t : Trap) (f : α → Except Trap β) :
    ((Except.error t : Except Trap α) >>= f) = .error t := rfl

theorem bind_ok_iff {α β : Type} {x : Except Trap α} {f : α → Except Trap β} {b : β} :
    (x >>= f) = .ok b ↔ ∃ a, x = .ok a ∧ f a = .ok b := by
  cases x <;> simp

@[simp] theorem raiseIf_pos {c : Prop} [Decidable c] (t : Trap) (h : c) :
    raiseIf c t = .error t := if_pos h

@[simp] theorem raiseIf_neg {c : Prop} [Decidable c] (t : Trap) (h : ¬ c) :
    raiseIf c t = .ok () := if_neg h

theorem raiseIf_ok_iff {c : Prop} [Decidable c] {t : Trap} {u : Unit} :
    raiseIf c t = .ok u ↔ ¬ c := by
  unfold raiseIf; split <;> simp_all

/-- R54: when an access is in range. -/
theorem rangeCheck_ok_iff {s : State} {a n : Nat} {u : Unit} :
    rangeCheck s a n = .ok u ↔ n = 0 ∨ a + n ≤ s.params.msize := by
  rw [rangeCheck, raiseIf_ok_iff]; omega

/-- R54: what an access out of range raises. -/
theorem rangeCheck_error {s : State} {a n : Nat} (h : 0 < n) (h' : s.params.msize < a + n) :
    rangeCheck s a n = .error ⟨.memRange, a⟩ := raiseIf_pos _ ⟨h, h'⟩

/-- What a field element operand gives (R99 to R101). -/
theorem fieldOperand_ok_iff {s : State} {i : XReg} {v : Byte} :
    fieldOperand s i = .ok v ↔ s.unsignedX i ≤ 255 ∧ v = (s.getX i).setWidth 8 := by
  unfold fieldOperand; split
  · simp; omega
  · simp only [Except.ok.injEq, eq_comm]; constructor
    · intro h; exact ⟨by omega, h⟩
    · exact And.right

theorem fieldOperand_error {s : State} {i : XReg} (h : 255 < s.unsignedX i) :
    fieldOperand s i = .error ⟨.invalidArgument, s.unsignedX i⟩ := if_pos h

/-- R95: `glog` gives the table entry, and fails where there is none. -/
theorem glog_ok_iff {v : Byte} {l : Nat} : glog v = .ok l ↔ logTable v = some l := by
  unfold glog; split <;> simp_all

/-! One command. -/

@[simp] theorem command_discard {w : Word} {s : State} (e : Except Trap State)
    (h : s.faulted = true) : command w s e = .next s := by simp [command, h]

@[simp] theorem command_ok {w : Word} {s : State} (t : State) (h : s.faulted = false) :
    command w s (.ok t) = .next t := by simp [command, h]

@[simp] theorem command_error {w : Word} {s : State} (r : Trap) (h : s.faulted = false) :
    command w s (.error r) = .next (s.enterFault r w) := by simp [command, h]

/-- Everything a command can answer: discarded (R165), done, or faulted (R163). -/
theorem command_cases {w : Word} {s t : State} {e : Except Trap State}
    (h : command w s e = .next t) :
    (s.faulted = true ∧ t = s) ∨
      (s.faulted = false ∧ (e = .ok t ∨ ∃ r, e = .error r ∧ t = s.enterFault r w)) := by
  unfold command at h
  split at h
  · cases h; exact .inl ⟨‹_›, rfl⟩
  · refine .inr ⟨by simp_all, ?_⟩
    cases e <;> cases h
    · exact .inr ⟨_, rfl, rfl⟩
    · exact .inl rfl

/-- A command always answers a next state. -/
theorem command_next (w : Word) (s : State) (e : Except Trap State) :
    ∃ t, command w s e = .next t := by
  unfold command; split
  · exact ⟨_, rfl⟩
  · cases e <;> exact ⟨_, rfl⟩

/-! The block table. -/

/-- What the checks that `ECCB` and `ILV` share let through (R136). -/
theorem checkedBlocks_ok_iff {s : State} {blocks : List RsBlock} :
    checkedBlocks s = .ok blocks ↔
      (s.nblk.toNat = 0 ∨ s.tbase.toNat + 2 * s.nblk.toNat ≤ s.params.msize) ∧
      blocks = blockTable s s.tbase.toNat s.nblk.toNat ∧
      checkBlocks s.params.lmax 0 blocks = .ok () ∧
      (sumData blocks = 0 ∨ s.dbase.toNat + sumData blocks ≤ s.params.msize) ∧
      (sumEc blocks = 0 ∨ s.ebase.toNat + sumEc blocks ≤ s.params.msize) := by
  simp only [checkedBlocks, bind_ok_iff, rangeCheck_ok_iff, State.getCsr, Except.ok.injEq]
  constructor
  · rintro ⟨-, h1, u, h2, -, h3, -, h4, rfl⟩
    exact ⟨by omega, rfl, h2, h3, h4⟩
  · rintro ⟨h1, rfl, h2, h3, h4⟩
    exact ⟨(), by omega, (), h2, (), h3, (), h4, rfl⟩

/-- The blocks that pass the checks: no block has more data than its total, and each fits `LMAX`. -/
theorem checkBlocks_ok_iff {lmax r : Nat} {blocks : List RsBlock} {u : Unit} :
    checkBlocks lmax r blocks = .ok u ↔
      ∀ b ∈ blocks, b.data ≤ b.total ∧ b.ec + 1 ≤ lmax ∧ b.total ≤ lmax := by
  induction blocks generalizing r with
  | nil => simp [checkBlocks]
  | cons b rest ih =>
    simp only [checkBlocks, bind_ok_iff, raiseIf_ok_iff, ih, List.forall_mem_cons]
    constructor
    · rintro ⟨-, h1, -, h2, -, h3, h4⟩
      exact ⟨⟨by omega, by omega, by omega⟩, h4⟩
    · rintro ⟨⟨h1, h2, h3⟩, h4⟩
      exact ⟨(), by omega, (), by omega, (), by omega, h4⟩

end Sys2Proof.Machine
end

