-- ==== Sys2Proof/Laws/Exec.lean ====
section
/-! SUPPORT. What `exec` and `step` can answer, said once (the inversion lemmas every whole-machine
proof goes through). -/

namespace Sys2Proof.Machine

/-- What a command does when it neither is discarded nor faults. -/
def Done : Instr → State → State → Prop
  | .nop, s, t => t = s
  | .li a imm, s, t => t = s.setX a (sext16 imm)
  | .ldb a b, s, t =>
    s.unsignedX b < s.params.msize ∧ t = s.setX a (zext8 (s.readByte (s.unsignedX b)))
  | .stb a b, s, t =>
    s.unsignedX b < s.params.msize ∧ t = s.memWrite (s.unsignedX b) [s.lowByte a]
  | .csrr a csr, s, t => t = s.setX a (s.getCsr csr)
  | .csrw a csr, s, t => csr.writable = true ∧ t = s.setCsr csr (s.getX a)
  | .gexp a b, s, t => t = s.setX a (zext8 (gexp (s.signedX b)))
  | .glog a b, s, t =>
    ∃ v l, fieldOperand s b = .ok v ∧ glog v = .ok l ∧ t = s.setX a (wordOfNat l)
  | .gadd a b c, s, t =>
    ∃ v1 v2, fieldOperand s b = .ok v1 ∧ fieldOperand s c = .ok v2 ∧
      t = s.setX a (zext8 (gadd v1 v2))
  | .gmul a b c, s, t =>
    ∃ v1 v2, fieldOperand s b = .ok v1 ∧ fieldOperand s c = .ok v2 ∧
      t = s.setX a (zext8 (gmul v1 v2))
  | .pld a b c d, s, t =>
    (s.unsignedX c = 0 ∨ s.unsignedX b + s.unsignedX c ≤ s.params.msize) ∧
    constructLength (s.memRead (s.unsignedX b) (s.unsignedX c)) (s.unsignedX d) ≤ s.params.lmax ∧
      t = s.setP a (construct (s.memRead (s.unsignedX b) (s.unsignedX c)) (s.unsignedX d))
  | .pst a b, s, t =>
    ((s.getP a).length = 0 ∨ s.unsignedX b + (s.getP a).length ≤ s.params.msize) ∧
      t = s.memWrite (s.unsignedX b) (s.getP a)
  | .plen a b, s, t => t = s.setX a (wordOfNat (s.getP b).length)
  | .pidx a b c, s, t => ∃ v, (s.getP b)[s.unsignedX c]? = some v ∧ t = s.setX a (zext8 v)
  | .pmul a b c, s, t =>
    ((s.getP b).length ≠ 0 ∧ (s.getP c).length ≠ 0) ∧
      (s.getP b).length + (s.getP c).length - 1 ≤ s.params.lmax ∧
      t = s.setP a (pmul (s.getP b) (s.getP c))
  | .pmod a b c, s, t => ∃ m, pmod (s.getP b) (s.getP c) = .ok m ∧ t = s.setP a m
  | .pgen a b, s, t => s.unsignedX b + 1 ≤ s.params.lmax ∧ t = s.setP a (pgen (s.unsignedX b))
  | .ecc1 a b c d, s, t =>
    s.unsignedX c + 1 ≤ s.params.lmax ∧ s.unsignedX b + s.unsignedX c ≤ s.params.lmax ∧
      (s.unsignedX b = 0 ∨ s.unsignedX a + s.unsignedX b ≤ s.params.msize) ∧
      (s.unsignedX c = 0 ∨ s.unsignedX d + s.unsignedX c ≤ s.params.msize) ∧
      ∃ e, ecc (s.memRead (s.unsignedX a) (s.unsignedX b)) (s.unsignedX c) = .ok e ∧
        t = s.memWrite (s.unsignedX d) e
  | .eccb, s, t =>
    ∃ blocks out, checkedBlocks s = .ok blocks ∧
      eccBlocks blocks (s.memRead s.dbase.toNat (sumData blocks)) = .ok out ∧
      t = s.memWrite s.ebase.toNat out
  | .ilv a, s, t =>
    ∃ blocks, checkedBlocks s = .ok blocks ∧
      (sumData blocks + sumEc blocks = 0 ∨
        s.obase.toNat + (sumData blocks + sumEc blocks) ≤ s.params.msize) ∧
      t = (s.memWrite s.obase.toNat (ilvStream s blocks)).setX a
        (wordOfNat (sumData blocks + sumEc blocks))

/-- Every command goes through the one wrapper, with its own word. -/
theorem exec_is_command (i : Instr) (s : State) : ∃ e, exec i s = command (encode i) s e := by
  cases i <;> first | exact ⟨.ok _, rfl⟩ | exact ⟨_, rfl⟩

/-- Everything `exec` can answer: the command is discarded (R165), faults (R163), or is done. -/
theorem exec_cases {i : Instr} {s t : State} (h : exec i s = .next t) :
    (s.faulted = true ∧ t = s) ∨
      (s.faulted = false ∧ ((∃ r, t = s.enterFault r (encode i)) ∨ Done i s t)) := by
  have key : ∀ e, command (encode i) s e = .next t → (e = .ok t → Done i s t) →
      (s.faulted = true ∧ t = s) ∨
        (s.faulted = false ∧ ((∃ r, t = s.enterFault r (encode i)) ∨ Done i s t)) := by
    intro e he hd
    rcases command_cases he with h | ⟨h, h' | ⟨r, -, h'⟩⟩
    · exact .inl h
    · exact .inr ⟨h, .inr (hd h')⟩
    · exact .inr ⟨h, .inl ⟨r, h'⟩⟩
  cases i with
  | nop => exact key (.ok _) h fun e => (Except.ok.inj e).symm
  | li a imm => exact key (.ok _) h fun e => (Except.ok.inj e).symm
  | csrr a csr => exact key (.ok _) h fun e => (Except.ok.inj e).symm
  | gexp a b => exact key (.ok _) h fun e => (Except.ok.inj e).symm
  | plen a b => exact key (.ok _) h fun e => (Except.ok.inj e).symm
  | ldb a b =>
    refine key _ h fun e => ?_
    simp only [bind_ok_iff, rangeCheck_ok_iff, Except.ok.injEq] at e
    obtain ⟨-, h1, rfl⟩ := e
    exact ⟨by omega, rfl⟩
  | stb a b =>
    refine key _ h fun e => ?_
    simp only [bind_ok_iff, rangeCheck_ok_iff, Except.ok.injEq] at e
    obtain ⟨-, h1, rfl⟩ := e
    exact ⟨by omega, rfl⟩
  | csrw a csr =>
    refine key _ h fun e => ?_
    simp only [bind_ok_iff, raiseIf_ok_iff, Except.ok.injEq] at e
    obtain ⟨-, h1, rfl⟩ := e
    exact ⟨by simpa using h1, rfl⟩
  | glog a b =>
    refine key _ h fun e => ?_
    simp only [bind_ok_iff, Except.ok.injEq] at e
    obtain ⟨v, h1, l, h2, rfl⟩ := e
    exact ⟨v, l, h1, h2, rfl⟩
  | gadd a b c =>
    refine key _ h fun e => ?_
    simp only [bind_ok_iff, Except.ok.injEq] at e
    obtain ⟨v, h1, l, h2, rfl⟩ := e
    exact ⟨v, l, h1, h2, rfl⟩
  | gmul a b c =>
    refine key _ h fun e => ?_
    simp only [bind_ok_iff, Except.ok.injEq] at e
    obtain ⟨v, h1, l, h2, rfl⟩ := e
    exact ⟨v, l, h1, h2, rfl⟩
  | pld a b c d =>
    refine key _ h fun e => ?_
    simp only [bind_ok_iff, rangeCheck_ok_iff, raiseIf_ok_iff, Except.ok.injEq] at e
    obtain ⟨-, h1, -, h2, rfl⟩ := e
    exact ⟨h1, by omega, rfl⟩
  | pst a b =>
    refine key _ h fun e => ?_
    simp only [bind_ok_iff, rangeCheck_ok_iff, Except.ok.injEq] at e
    obtain ⟨-, h1, rfl⟩ := e
    exact ⟨h1, rfl⟩
  | pidx a b c =>
    refine key _ h fun e => ?_
    split at e
    · cases e; exact ⟨_, ‹_›, rfl⟩
    · cases e
  | pmul a b c =>
    refine key _ h fun e => ?_
    simp only [bind_ok_iff, raiseIf_ok_iff, Except.ok.injEq] at e
    obtain ⟨-, h1, -, h2, rfl⟩ := e
    exact ⟨by omega, by omega, rfl⟩
  | pmod a b c =>
    refine key _ h fun e => ?_
    simp only [bind_ok_iff, Except.ok.injEq] at e
    obtain ⟨m, h1, rfl⟩ := e
    exact ⟨m, h1, rfl⟩
  | pgen a b =>
    refine key _ h fun e => ?_
    simp only [bind_ok_iff, raiseIf_ok_iff, Except.ok.injEq] at e
    obtain ⟨-, h1, rfl⟩ := e
    exact ⟨by omega, rfl⟩
  | ecc1 a b c d =>
    refine key _ h fun e => ?_
    simp only [bind_ok_iff, rangeCheck_ok_iff, raiseIf_ok_iff, Except.ok.injEq] at e
    obtain ⟨-, h1, -, h2, -, h3, -, h4, out, h5, rfl⟩ := e
    exact ⟨by omega, by omega, h3, h4, out, h5, rfl⟩
  | eccb =>
    refine key _ h fun e => ?_
    simp only [bind_ok_iff, Except.ok.injEq] at e
    obtain ⟨blocks, h1, out, h2, rfl⟩ := e
    exact ⟨blocks, out, h1, h2, rfl⟩
  | ilv a =>
    refine key _ h fun e => ?_
    simp only [bind_ok_iff, rangeCheck_ok_iff, Except.ok.injEq] at e
    obtain ⟨blocks, h1, -, h2, rfl⟩ := e
    exact ⟨blocks, h1, h2, rfl⟩

/-- Everything a presented word can do. -/
theorem acceptCommand_cases {w : Word} {s t : State} (h : acceptCommand w s = .next t) :
    (∃ i, decode w = .ok i ∧ exec i s = .next t) ∨
      (∃ e, decode w = .error e ∧
        ((s.faulted = true ∧ t = s) ∨
          (s.faulted = false ∧ t = s.enterFault ⟨.illegalCommand, 0⟩ w))) := by
  unfold acceptCommand at h
  split at h
  · exact .inl ⟨_, ‹_›, h⟩
  · refine .inr ⟨_, ‹_›, ?_⟩
    rcases command_cases h with h | ⟨h, h' | ⟨r, hr, h'⟩⟩
    · exact .inl h
    · cases h'
    · cases hr; exact .inr ⟨h, h'⟩

/-- Everything a host write can answer (R36). -/
theorem hostWrite_cases {a : Nat} {b : Byte} {s t : State} (h : hostWrite a b s = .next t) :
    a < s.params.msize ∧ t = s.memWrite a [b] := by
  unfold hostWrite at h
  split at h <;> cases h
  exact ⟨‹_›, rfl⟩

/-- Everything a host read can answer (R36). -/
theorem hostRead_cases {a : Nat} {s t : State} (h : hostRead a s = .next t) :
    a < s.params.msize ∧ t = s := by
  unfold hostRead State.memPort at h
  split at h <;> cases h
  rename_i _ hv
  exact ⟨by by_contra hc; simp [hc] at hv, rfl⟩

/-- Everything a step can answer, event by event (R20, R36). -/
theorem step_cases {s t : State} (h : step s = .next t) :
    (s.inbox = [] ∧ t = s) ∨
    ∃ e rest, s.inbox = e :: rest ∧
      ((∃ w, e = .command w ∧ acceptCommand w { s with inbox := rest } = .next t) ∨
       (∃ a b, e = .memWrite a b ∧ a < s.params.msize ∧
          t = ({ s with inbox := rest } : State).memWrite a [b]) ∨
       (((∃ a, e = .memRead a ∧ a < s.params.msize) ∨ e = .observe) ∧
          t = { s with inbox := rest }) ∨
       ((e = .reset ∨ ∃ w, e = .resetDuring w) ∧
          t = ({ s with inbox := rest } : State).afterReset)) := by
  unfold step nextEvent at h
  split at h
  · cases h; exact .inl ⟨‹_›, rfl⟩
  · rename_i e rest hin
    refine .inr ⟨e, rest, hin, ?_⟩
    cases e with
    | command w => exact .inl ⟨w, rfl, h⟩
    | memWrite a b =>
      obtain ⟨h1, h2⟩ := hostWrite_cases h
      exact .inr (.inl ⟨a, b, rfl, h1, h2⟩)
    | memRead a =>
      obtain ⟨h1, h2⟩ := hostRead_cases h
      exact .inr (.inr (.inl ⟨.inl ⟨a, rfl, h1⟩, h2⟩))
    | observe => cases h; exact .inr (.inr (.inl ⟨.inr rfl, rfl⟩))
    | reset => cases h; exact .inr (.inr (.inr ⟨.inl rfl, rfl⟩))
    | resetDuring w => cases h; exact .inr (.inr (.inr ⟨.inr ⟨w, rfl⟩, rfl⟩))

end Sys2Proof.Machine
end

