-- ==== Sys2Proof/Laws/PerInstr.lean ====
section
/-! SUPPORT. Per command: its encoded word matches its row of spec/opcode_table.json (30_encoding.md
R75), mask and match taken from the table. -/

namespace Sys2Proof.Laws.MatchesTable

/-- The `mask` and `match` columns of the command's row of spec/opcode_table.json. -/
def row : Instr → Word × Word
  | .nop => (0xFFFFFFFF, 0x00000000)
  | .li _ _ => (0xFF0F0000, 0x01000000)
  | .ldb _ _ => (0xFF00FFFF, 0x02000000)
  | .stb _ _ => (0xFF00FFFF, 0x03000000)
  | .csrr _ _ => (0xFF0F0000, 0x04000000)
  | .csrw _ _ => (0xFF0F0000, 0x05000000)
  | .gexp _ _ => (0xFF00FFFF, 0x10000000)
  | .glog _ _ => (0xFF00FFFF, 0x11000000)
  | .gadd _ _ _ => (0xFF000FFF, 0x12000000)
  | .gmul _ _ _ => (0xFF000FFF, 0x13000000)
  | .pld _ _ _ _ => (0xFFC000FF, 0x20000000)
  | .pst _ _ => (0xFFC0FFFF, 0x21000000)
  | .plen _ _ => (0xFF0CFFFF, 0x22000000)
  | .pidx _ _ _ => (0xFF0C0FFF, 0x23000000)
  | .pmul _ _ _ => (0xFFCCCFFF, 0x24000000)
  | .pmod _ _ _ => (0xFFCCCFFF, 0x25000000)
  | .pgen _ _ => (0xFFC0FFFF, 0x26000000)
  | .ecc1 _ _ _ _ => (0xFF0000FF, 0x30000000)
  | .eccb => (0xFFFFFFFF, 0x31000000)
  | .ilv _ => (0xFF0FFFFF, 0x32000000)

/-- Under the row's mask, the encoded word is the row's match. -/
def Statement (i : Instr) : Prop := encode i &&& (row i).1 = (row i).2

/-- The two high bits of a polynomial register field are 0 (R73). -/
theorem pfield_high (r : PReg) : (pfield r)[2] = false ∧ (pfield r)[3] = false := by
  revert r; decide

/-- A word is its bits. -/
theorem of_bits {w m r : Word}
    (h : ∀ k < 32, (w.getLsbD k && m.getLsbD k) = r.getLsbD k) : w &&& m = r :=
  BitVec.eq_of_getLsbD_eq fun k hk => by rw [BitVec.getLsbD_and]; exact h k hk


theorem nop : Statement .nop := by unfold Statement; decide

theorem li (a : XReg) (imm : BitVec 16) : Statement (.li a imm) := by
  refine of_bits fun k hk => ?_
  simp only [encode, row, formatI, BitVec.getLsbD_append]
  interval_cases k <;> simp

theorem ldb (a b : XReg) : Statement (.ldb a b) := by
  refine of_bits fun k hk => ?_
  simp only [encode, row, formatR, BitVec.getLsbD_append]
  interval_cases k <;> simp

theorem stb (a b : XReg) : Statement (.stb a b) := by
  refine of_bits fun k hk => ?_
  simp only [encode, row, formatR, BitVec.getLsbD_append]
  interval_cases k <;> simp

theorem csrr (a : XReg) (csr : Csr) : Statement (.csrr a csr) := by
  refine of_bits fun k hk => ?_
  simp only [encode, row, formatI, BitVec.getLsbD_append]
  interval_cases k <;> simp

theorem csrw (a : XReg) (csr : Csr) : Statement (.csrw a csr) := by
  refine of_bits fun k hk => ?_
  simp only [encode, row, formatI, BitVec.getLsbD_append]
  interval_cases k <;> simp

theorem gexp (a b : XReg) : Statement (.gexp a b) := by
  refine of_bits fun k hk => ?_
  simp only [encode, row, formatR, BitVec.getLsbD_append]
  interval_cases k <;> simp

theorem glog (a b : XReg) : Statement (.glog a b) := by
  refine of_bits fun k hk => ?_
  simp only [encode, row, formatR, BitVec.getLsbD_append]
  interval_cases k <;> simp

theorem gadd (a b c : XReg) : Statement (.gadd a b c) := by
  refine of_bits fun k hk => ?_
  simp only [encode, row, formatR, BitVec.getLsbD_append]
  interval_cases k <;> simp

theorem gmul (a b c : XReg) : Statement (.gmul a b c) := by
  refine of_bits fun k hk => ?_
  simp only [encode, row, formatR, BitVec.getLsbD_append]
  interval_cases k <;> simp

theorem pld (a : PReg) (b c d : XReg) : Statement (.pld a b c d) := by
  refine of_bits fun k hk => ?_
  simp only [encode, row, formatR, BitVec.getLsbD_append]
  interval_cases k <;> simp [pfield_high a]

theorem pst (a : PReg) (b : XReg) : Statement (.pst a b) := by
  refine of_bits fun k hk => ?_
  simp only [encode, row, formatR, BitVec.getLsbD_append]
  interval_cases k <;> simp [pfield_high a]

theorem plen (a : XReg) (b : PReg) : Statement (.plen a b) := by
  refine of_bits fun k hk => ?_
  simp only [encode, row, formatR, BitVec.getLsbD_append]
  interval_cases k <;> simp [pfield_high b]

theorem pidx (a : XReg) (b : PReg) (c : XReg) : Statement (.pidx a b c) := by
  refine of_bits fun k hk => ?_
  simp only [encode, row, formatR, BitVec.getLsbD_append]
  interval_cases k <;> simp [pfield_high b]

theorem pmul (a b c : PReg) : Statement (.pmul a b c) := by
  refine of_bits fun k hk => ?_
  simp only [encode, row, formatR, BitVec.getLsbD_append]
  interval_cases k <;> simp [pfield_high a, pfield_high b, pfield_high c]

theorem pmod (a b c : PReg) : Statement (.pmod a b c) := by
  refine of_bits fun k hk => ?_
  simp only [encode, row, formatR, BitVec.getLsbD_append]
  interval_cases k <;> simp [pfield_high a, pfield_high b, pfield_high c]

theorem pgen (a : PReg) (b : XReg) : Statement (.pgen a b) := by
  refine of_bits fun k hk => ?_
  simp only [encode, row, formatR, BitVec.getLsbD_append]
  interval_cases k <;> simp [pfield_high a]

theorem ecc1 (a b c d : XReg) : Statement (.ecc1 a b c d) := by
  refine of_bits fun k hk => ?_
  simp only [encode, row, formatR, BitVec.getLsbD_append]
  interval_cases k <;> simp

theorem eccb : Statement .eccb := by unfold Statement; decide

theorem ilv (a : XReg) : Statement (.ilv a) := by
  refine of_bits fun k hk => ?_
  simp only [encode, row, formatR, BitVec.getLsbD_append]
  interval_cases k <;> simp

end Sys2Proof.Laws.MatchesTable
end

