-- ==== Sys2Proof/Laws/Poly.lean ====
section
/-! SUPPORT. The small lemmas of the field, polynomial and block functions: what each gives back, so
that no later proof unfolds it for its length or its shape. -/

namespace Sys2Proof.Machine

/-! Field. -/

@[simp] theorem logTable_zero : logTable 0#8 = none := by decide

@[simp] theorem gmul_zero_left (b : Byte) : gmul 0#8 b = 0#8 := by
  unfold gmul; rw [logTable_zero]; rfl

@[simp] theorem gmul_zero_right (a : Byte) : gmul a 0#8 = 0#8 := by
  unfold gmul; rw [logTable_zero]; cases logTable a <;> rfl

@[simp] theorem gadd_zero (a : Byte) : gadd a 0#8 = a := by simp [gadd]
@[simp] theorem zero_gadd (a : Byte) : gadd 0#8 a = a := by simp [gadd]
@[simp] theorem gadd_self (a : Byte) : gadd a a = 0#8 := by simp [gadd]
theorem gadd_comm (a b : Byte) : gadd a b = gadd b a := BitVec.xor_comm a b
theorem gadd_assoc (a b c : Byte) : gadd (gadd a b) c = gadd a (gadd b c) := BitVec.xor_assoc a b c

/-! Construction (R111). -/

@[simp] theorem trim_nil : trim [] = [] := rfl

@[simp] theorem trim_zero_cons (c : List Byte) : trim (0#8 :: c) = trim c := if_pos rfl

theorem trim_cons_of_ne {b : Byte} (c : List Byte) (h : b ≠ 0#8) : trim (b :: c) = b :: c := if_neg h

theorem trim_length_le (c : List Byte) : (trim c).length ≤ c.length := by
  induction c with
  | nil => exact le_rfl
  | cons b c ih =>
    by_cases h : b = 0#8
    · subst h; simp only [trim_zero_cons, List.length_cons]; omega
    · rw [trim_cons_of_ne c h]

/-- What is left after the trim starts with a nonzero coefficient. -/
theorem trim_head (c : List Byte) : (trim c).head? ≠ some 0#8 := by
  induction c with
  | nil => simp
  | cons b c ih =>
    by_cases h : b = 0#8
    · subst h; simpa using ih
    · rw [trim_cons_of_ne c h]; simpa using h

/-- Nothing is left of an all-zero array, and of no other. -/
theorem trim_eq_nil_iff {c : List Byte} : trim c = [] ↔ ∀ b ∈ c, b = 0#8 := by
  induction c with
  | nil => simp
  | cons b c ih =>
    by_cases h : b = 0#8
    · subst h; simp [ih]
    · simp [trim_cons_of_ne c h, h]

theorem construct_length (c : List Byte) (n : Nat) : (construct c n).length = constructLength c n := by
  simp [construct, constructLength]

@[simp] theorem construct_zero_shift (c : List Byte) : construct c 0 = trim c := by
  simp [construct]

/-! Sums and products. -/

theorem addAligned_length (a b : List Byte) :
    (addAligned a b).length = max a.length b.length := by
  induction a generalizing b with
  | nil => simp [addAligned]
  | cons x a ih =>
    cases b with
    | nil => simp [addAligned]
    | cons y b => simp only [addAligned, List.length_cons, ih]; omega

@[simp] theorem subScaled_length (cur div : Poly) (q : Byte) :
    (subScaled cur div q).length = cur.length := by
  induction cur generalizing div with
  | nil => rfl
  | cons c cur ih => cases div <;> simp [subScaled, ih]

/-! Blocks. -/

@[simp] theorem padLeft_length (m : Poly) (n : Nat) : (padLeft m n).length = n := by
  simp [padLeft]

/-- `ecc` gives exactly `ec` bytes where it gives any (R132 a). -/
theorem ecc_length {d e : List Byte} {n : Nat} (h : ecc d n = .ok e) : e.length = n := by
  simp only [ecc, bind_ok_iff, Except.ok.injEq] at h
  obtain ⟨m, -, rfl⟩ := h
  exact padLeft_length m n

/-- The packed ECC of a block list has `Σ ec_r` bytes (R136). -/
theorem eccBlocks_length {blocks : List RsBlock} {buf out : List Byte}
    (h : eccBlocks blocks buf = .ok out) : out.length = sumEc blocks := by
  induction blocks generalizing buf out with
  | nil => cases h; rfl
  | cons b rest ih =>
    simp only [eccBlocks, bind_ok_iff, Except.ok.injEq] at h
    obtain ⟨e, he, more, hm, rfl⟩ := h
    simp [sumEc, ecc_length he, ih hm]

@[simp] theorem runs_length (ns : List Nat) (buf : List Byte) :
    (runs ns buf).length = ns.length := by
  induction ns generalizing buf with
  | nil => rfl
  | cons n ns ih => simp [runs, ih]

/-- The runs of a buffer that holds them all have the lengths asked for (R135). -/
theorem runs_lengths {ns : List Nat} {buf : List Byte} (h : ns.sum ≤ buf.length) :
    (runs ns buf).map List.length = ns := by
  induction ns generalizing buf with
  | nil => rfl
  | cons n ns ih =>
    simp only [List.sum_cons] at h
    simp only [runs, List.map_cons, List.length_take, List.cons.injEq]
    exact ⟨by omega, ih (by simp only [List.length_drop]; omega)⟩

end Sys2Proof.Machine
end

