-- ==== Sys2Proof/Tests/Slice0.lean ====
section
/-! SUPPORT. Tests of the model against words and values written out from spec/ (95_test_vectors.md and
the rules' examples), and for every statement with hypotheses a concrete case that meets them. -/

namespace Sys2Proof.Tests

open Sys2Proof.Machine Sys2Proof.Claims

/-! Small states. -/

/-- The reset state with some scalar registers set. -/
def regs (l : List (XReg × Word)) : State := l.foldl (fun s e => s.setX e.1 e.2) State.reset

/-- A state with some bytes of `M` written by the host. -/
def poke (s : State) (addr : Nat) (bs : List Byte) : State := s.memWrite addr bs

/-- `p0` and `p1` set. -/
def polys (p0 p1 : Poly) : State := (State.reset.setP 0 p0).setP 1 p1

/-- The host presents one command word; the state after the step. -/
def after (s : State) (w : Word) : State :=
  match step { s with inbox := [.command w] } with
  | .next t => t
  | _ => State.reset

/-- `STATUS`, `CAUSE`, `FINFO`, `FCMD`. -/
def faultRegs (s : State) : List Word := [s.status, s.cause, s.finfo, s.fcmd]

/-! ## WellFormed: each check refuses an ill-formed term (R26) -/

theorem test_wellFormed_refuses_read_only_csr :
    (Instr.csrw 1 .status).wellFormed = false ∧ (Instr.csrw 1 .cause).wellFormed = false ∧
    (Instr.csrw 1 .finfo).wellFormed = false ∧ (Instr.csrw 1 .fcmd).wellFormed = false ∧
    (Instr.csrw 1 .tbase).wellFormed = true := by decide

/-! ## Decoding: words written out from the spec (30_encoding.md section 6, 95 section 7.3) -/

theorem test_decode_scalar :
    decode 0x00000000 = .ok .nop ∧ decode 0x01F08000 = .ok (.li 15 0x8000) ∧
    decode 0x01007FFF = .ok (.li 0 0x7FFF) ∧ decode 0x02540000 = .ok (.ldb 5 4) ∧
    decode 0x03410000 = .ok (.stb 4 1) ∧ decode 0x04300008 = .ok (.csrr 3 .obase) ∧
    decode 0x05100004 = .ok (.csrw 1 .tbase) := by decide

theorem test_decode_field :
    decode 0x10FF0000 = .ok (.gexp 15 15) ∧ decode 0x11650000 = .ok (.glog 6 5) ∧
    decode 0x12958000 = .ok (.gadd 9 5 8) ∧ decode 0x13A89000 = .ok (.gmul 10 8 9) := by decide

theorem test_decode_polynomial :
    decode 0x203FED00 = .ok (.pld 3 15 14 13) ∧ decode 0x21380000 = .ok (.pst 3 8) ∧
    decode 0x22620000 = .ok (.plen 6 2) ∧ decode 0x23723000 = .ok (.pidx 7 2 3) ∧
    decode 0x24221000 = .ok (.pmul 2 2 1) ∧ decode 0x25023000 = .ok (.pmod 0 2 3) ∧
    decode 0x26350000 = .ok (.pgen 3 5) := by decide

theorem test_decode_block :
    decode 0x30123400 = .ok (.ecc1 1 2 3 4) ∧ decode 0x31000000 = .ok .eccb ∧
    decode 0x32200000 = .ok (.ilv 2) := by decide

/-- The words of 95 section 7.3 and F1 to F9 that decode to nothing. -/
theorem test_decode_refuses :
    decode 0x00000001 = .error .nonzeroField ∧ decode 0x01010000 = .error .nonzeroZb ∧
    decode 0x0400FFFF = .error .csrNumber ∧ decode 0x05000000 = .error .csrNumber ∧
    decode 0x05100003 = .error .csrNumber ∧ decode 0x04100009 = .error .csrNumber ∧
    decode 0x10000100 = .error .nonzeroField ∧ decode 0x12000100 = .error .nonzeroField ∧
    decode 0x20000001 = .error .nonzeroField ∧ decode 0x21400000 = .error .polyRegister ∧
    decode 0x22040000 = .error .polyRegister ∧ decode 0x24014000 = .error .polyRegister ∧
    decode 0x2600F000 = .error .nonzeroField ∧ decode 0x31000100 = .error .nonzeroField ∧
    decode 0x32010000 = .error .nonzeroField ∧ decode 0x06000000 = .error .reservedOpcode ∧
    decode 0xFFFFFFFF = .error .reservedOpcode := by decide

/-- The encoder gives the words of 95 section 7.3. -/
theorem test_encode :
    encode (.li 15 0x8000) = 0x01F08000 ∧ encode (.csrr 3 .obase) = 0x04300008 ∧
    encode (.gadd 9 5 8) = 0x12958000 ∧ encode (.pld 3 15 14 13) = 0x203FED00 ∧
    encode (.pidx 7 2 3) = 0x23723000 ∧ encode (.ecc1 1 2 3 4) = 0x30123400 := by decide

/-! ## Scalar and system commands (V50 to V53) -/

/-- V53: `NOP` leaves the state as it was. -/
theorem test_nop : after (regs [(1, 7)]) 0x00000000 = regs [(1, 7)] := by decide

/-- V50: `LI x4, 0x8000` sign-extends. -/
theorem test_li_negative : (after (regs []) 0x01408000).getX 4 = 0xFFFF8000 := by decide

/-- V50: the largest positive immediate. -/
theorem test_li_positive : (after (regs [(3, 0xFFFFFFFF)]) 0x01307FFF).getX 3 = 0x00007FFF := by
  decide

/-- V51: `LDB x4, x4` at the last byte of `M`, destination = address register. -/
theorem test_ldb_aliased :
    (after (poke (regs [(4, 0x1FFF)]) 0x1FFF [0xFF]) 0x02440000).getX 4 = 0x000000FF := by decide

/-- F40. -/
theorem test_ldb_range :
    faultRegs (after (regs [(1, 0x2000)]) 0x02210000) = [1, 5, 0x2000, 0x02210000] := by decide

/-- V51: the low byte only. -/
theorem test_stb_truncates :
    (after (regs [(4, 0x12345678), (1, 0x200)]) 0x03410000).mem = [(0x200, 0x78)] := by decide

/-- F41. -/
theorem test_stb_range :
    faultRegs (after (regs [(1, 0xFFFFFFFF)]) 0x03210000) =
      [1, 5, 0xFFFFFFFF, 0x03210000] := by decide

/-- R155's example. -/
theorem test_csrr : (after { regs [] with nblk := 3 } 0x04300005).getX 3 = 3 := by decide

/-- V52: reading `STATUS` gives 0. -/
theorem test_csrr_status : (after (regs [(3, 0x55)]) 0x04300000).getX 3 = 0 := by decide

/-- V52. -/
theorem test_csrw :
    after (regs [(1, 0xDEADBEEF)]) 0x05100004 =
      { regs [(1, 0xDEADBEEF)] with tbase := 0xDEADBEEF } := by decide

/-- F6: `CSRW x1, FCMD`. -/
theorem test_csrw_read_only :
    faultRegs (after (regs []) 0x05100003) = [1, 1, 0, 0x05100003] := by decide

/-! ## Field arithmetic (V1 to V4) -/

/-- V1: index -1. -/
theorem test_gexp_minus_one :
    (after (regs [(1, 0xFFFFFFFF)]) 0x10210000).getX 2 = 0x0000008E := by decide

/-- V1: the most negative index has residue 127. -/
theorem test_gexp_most_negative :
    (after (regs [(1, 0x80000000)]) 0x10210000).getX 2 = 0x000000CC := by decide

/-- V2: the largest logarithm. -/
theorem test_glog_largest : (after (regs [(1, 0x8E)]) 0x11210000).getX 2 = 254 := by decide

/-- V2: 256 faults `InvalidArgument`, not `LogOfZero`; the destination keeps its value. -/
theorem test_glog_wide :
    faultRegs (after (regs [(1, 0x100), (2, 0x55)]) 0x11210000) = [1, 4, 0x100, 0x11210000] ∧
    (after (regs [(1, 0x100), (2, 0x55)]) 0x11210000).getX 2 = 0x55 := by decide

/-- V3. -/
theorem test_gadd : (after (regs [(1, 0xC1), (2, 0x8E)]) 0x12312000).getX 3 = 0x4F := by decide

/-- V3, O5: the first operand is checked first. -/
theorem test_gadd_order :
    faultRegs (after (regs [(1, 0x300), (2, 0x200)]) 0x12312000) =
      [1, 4, 0x300, 0x12312000] := by decide

/-- V4: logs 175 + 175 = 350, folded to 95. -/
theorem test_gmul_folds : (after (regs [(1, 0xFF), (2, 0xFF)]) 0x13312000).getX 3 = 0xE2 := by decide

/-- V4: a zero operand takes no log. -/
theorem test_gmul_zero : (after (regs [(2, 0x57), (3, 9)]) 0x13312000).getX 3 = 0 := by decide

/-! ## Polynomial commands (V10 to V28) -/

/-- V10 row 2: leading zeros stripped, shift appended, interior zero kept. -/
theorem test_pld :
    (after (poke (regs [(1, 0x20), (2, 5), (3, 2)]) 0x20 [0, 0, 0x12, 0, 0x34])
      0x20012300).getP 0 = [0x12, 0, 0x34, 0, 0] := by decide

/-- F50: the capacity fault records the length that was needed. -/
theorem test_pld_capacity :
    faultRegs (after (poke (regs [(1, 0x22), (2, 3), (3, 254)]) 0x22 [0x12, 0, 0x34]) 0x20012300) =
      [1, 6, 0x101, 0x20012300] := by decide

/-- R114's example. -/
theorem test_pst :
    (after ((regs [(8, 16)]).setP 3 [0x01, 0x07, 0x0E, 0x08]) 0x21380000).mem =
      [(16, 0x01), (17, 0x07), (18, 0x0E), (19, 0x08)] := by decide

/-- V11: an empty register stores nothing and never faults. -/
theorem test_pst_empty : after (regs [(4, 0xFFFFFFFF)]) 0x21240000 = regs [(4, 0xFFFFFFFF)] := by decide

/-- R115's example. -/
theorem test_plen : (after (State.reset.setP 2 [1, 7, 14, 8]) 0x22620000).getX 6 = 4 := by decide

/-- R116's example: `C[2]`, index 0 the highest degree. -/
theorem test_pidx :
    (after ((regs [(3, 2)]).setP 2 [0x01, 0x07, 0x0E, 0x08]) 0x23723000).getX 7 = 0x0E := by decide

/-- F20: the index equal to the length. -/
theorem test_pidx_past_length :
    faultRegs (after ((regs [(6, 3)]).setP 0 [1, 3, 2]) 0x23706000) =
      [1, 3, 3, 0x23706000] := by decide

/-- V22. -/
theorem test_pmul :
    (after (polys [0x02, 0x00, 0x05] [0x03, 0x01]) 0x24201000).getP 2 =
      [0x06, 0x02, 0x0F, 0x05] := by decide

/-- V24: an all-zero operand gives untrimmed zeros. -/
theorem test_pmul_all_zero : (after (polys [0, 0] [1, 2]) 0x24201000).getP 2 = [0, 0, 0] := by decide

/-- V27c: a non-monic divisor with an interior zero. -/
theorem test_pmod :
    (after (polys [0x01, 0x02, 0x03, 0x04] [0x02, 0x00, 0x01]) 0x25201000).getP 2 =
      [0x8D, 0x05] := by decide

/-- F11: an all-zero dividend. -/
theorem test_pmod_zero_dividend :
    faultRegs (after (polys [0, 0, 0] [1, 3, 2]) 0x25201000) = [1, 2, 0, 0x25201000] := by decide

/-- V28. -/
theorem test_pgen :
    (after (regs [(5, 7)]) 0x26350000).getP 3 =
      [0x01, 0x7F, 0x7A, 0x9A, 0xA4, 0x0B, 0x44, 0x75] := by decide

/-- V28: `FINFO` keeps the low 32 bits of `2^32`. -/
theorem test_pgen_capacity :
    faultRegs (after (regs [(5, 0xFFFFFFFF)]) 0x26350000) = [1, 6, 0, 0x26350000] := by decide

/-! ## Block commands (V30, V39, P4) -/

/-- V30, P3: the published "HELLO WORLD" 1-M block. -/
theorem test_ecc1_hello_world :
    (after (poke (regs [(1, 0x100), (2, 16), (3, 10), (4, 0x200)]) 0x100
      [0x20, 0x5B, 0x0B, 0x78, 0xD1, 0x72, 0xDC, 0x4D, 0x43, 0x40, 0xEC, 0x11, 0xEC, 0x11, 0xEC, 0x11])
      0x30123400).memRead 0x200 10 =
      [0xC4, 0x23, 0x27, 0x77, 0xEB, 0xD7, 0xE7, 0xE2, 0x5D, 0x17] := by decide

/-- V39: the ECC range overlaps the data; all reads come first. -/
theorem test_ecc1_overlap :
    (after (poke (regs [(1, 0x100), (2, 3), (3, 2), (4, 0x101)]) 0x100 [0x12, 0x34, 0x56])
      0x30123400).mem = [(0x100, 0x12), (0x101, 0x98), (0x102, 0xE8)] := by decide

/-- P4's table and data, before `ECCB`. -/
def p4 : State :=
  { poke (poke State.reset 0 [6, 3, 6, 3, 7, 4]) 0x40
      [0x10, 0x20, 0x30, 0, 0, 0, 0x41, 0x42, 0x43, 0x44] with
    nblk := 3, dbase := 0x40, ebase := 0x80, obase := 0xC0 }

/-- P4's ECC area as `ECCB` leaves it. -/
def p4ecc : List Byte := [0xA9, 0x66, 0xCF, 0, 0, 0, 0xEF, 0xF2, 0x19]

/-- P4, R136's example. -/
theorem test_eccb : (after p4 0x31000000).memRead 0x80 9 = p4ecc := by decide

/-- F33: the number of the block that has more data than its total. -/
theorem test_eccb_invalid_block :
    faultRegs (after { poke State.reset 0 [6, 3, 3, 6] with nblk := 2 } 0x31000000) =
      [1, 4, 1, 0x31000000] := by decide

/-- P4, R139's example. -/
theorem test_ilv :
    (after (poke p4 0x80 p4ecc) 0x32200000).memRead 0xC0 19 =
      [0x10, 0x00, 0x41, 0x20, 0x00, 0x42, 0x30, 0x00, 0x43, 0x44,
        0xA9, 0x00, 0xEF, 0x66, 0x00, 0xF2, 0xCF, 0x00, 0x19] ∧
    (after (poke p4 0x80 p4ecc) 0x32200000).getX 2 = 19 := by decide

/-- F46: the output range. -/
theorem test_ilv_output_range :
    faultRegs (after { poke p4 0x80 p4ecc with obase := 0x1FF0 } 0x32200000) =
      [1, 5, 0x1FF0, 0x32200000] := by decide

/-! ## The sequencer -/

/-- P5: after a fault, a command is discarded. -/
theorem test_fault_discards :
    after (after (regs [(2, 7)]) 0x11310000) 0x01200009 = after (regs [(2, 7)]) 0x11310000 := by decide

/-- O1: decode comes first. -/
theorem test_decode_first :
    faultRegs (after (regs []) 0x11210001) = [1, 1, 0, 0x11210001] := by decide

/-- R91's and R93's corner entries. -/
theorem test_tables :
    expTable 200 = 0x1C ∧ expTable 254 = 0x8E ∧ expTable 255 = 0x01 ∧ logTable 0xFF = some 175 ∧
    logTable 1 = some 0 ∧ logTable 16 = some 4 ∧ logTable 15 = some 75 ∧ logTable 0 = none := by decide

/-- R123: a generator of the QR block tables. -/
theorem test_pgen_reference :
    pgen 10 = [0x01, 0xD8, 0xC2, 0x9F, 0x6F, 0xC7, 0x5E, 0x5F, 0x71, 0x9D, 0xC1] := by decide

/-- The host's two questions: the table word is decoded, and the step after reset runs it. -/
theorem test_table_word :
    decodeTableWord 32 0x10000000 = some (.gexp 0 0) ∧
    (match step (State.reset.withFetchWord 32 0x10000000) with
      | .next t => t.getX 0
      | _ => 0) = 1 := by decide

/-! # Witnesses: the hypotheses of every statement, clause by clause, at the values where clauses meet -/

/-- A faulted state (P5). -/
def faulted : State := after (regs [(2, 7)]) 0x11310000

/-- A state whose host has one event and then a `NOP` pending. -/
def pending (s : State) (e : HostEvent) : State := { s with inbox := [e, .command 0] }

/-! ## Encoding, step, reset -/

theorem witness_DecodeOfEncodeIsIdentity :
    (Instr.csrw 15 .tbase).wellFormed = true ∧ (Instr.pld 3 15 14 13).wellFormed = true := by decide

/-- Each disjunct of the illegal words is met by a word that meets no other: a reserved opcode at each
edge, then items 2 to 5 at their least offending value. -/
theorem witness_IllegalWordsAreTheFiveItems :
    opOf 0x06000000 = 0x06 ∧ opOf 0x33000000 = 0x33 ∧
    decode 0x06000000 = .error .reservedOpcode ∧ decode 0x33000000 = .error .reservedOpcode ∧
    decode 0x31000001 = .error .nonzeroField ∧ decode 0x32010000 = .error .nonzeroField ∧
    decode 0x02001000 = .error .nonzeroField ∧ decode 0x12000100 = .error .nonzeroField ∧
    decode 0x30000001 = .error .nonzeroField ∧ decode 0x01010000 = .error .nonzeroZb ∧
    decode 0x20400000 = .error .polyRegister ∧ decode 0x22040000 = .error .polyRegister ∧
    decode 0x24004000 = .error .polyRegister ∧ decode 0x04000009 = .error .csrNumber ∧
    decode 0x05000003 = .error .csrNumber ∧ decode 0x05000009 = .error .csrNumber ∧
    State.reset.faulted = false := by decide

theorem witness_StepRunsDecodedCommand :
    (pending State.reset (.command 0x011000C8)).inbox = [.command 0x011000C8, .command 0] ∧
    decode 0x011000C8 = .ok (.li 1 200) ∧ (Instr.li 1 200).wellFormed = true ∧
    (pending State.reset (.command 0x06000000)).inbox = [.command 0x06000000, .command 0] ∧
    (pending faulted (.command 0x06000000)).inbox = [.command 0x06000000, .command 0] ∧
    decode 0x06000000 = .error .reservedOpcode ∧
    (pending State.reset (.command 0x06000000)).faulted = false ∧
    (pending faulted (.command 0x06000000)).faulted = true := by decide

theorem witness_HostAccessesTouchOnlyMemory :
    State.reset.inbox = [] ∧
    (pending State.reset .observe).inbox = [.observe, .command 0] ∧
    (pending State.reset (.memRead 8191)).inbox = [.memRead 8191, .command 0] ∧
    (pending State.reset (.memWrite 8191 5)).inbox = [.memWrite 8191 5, .command 0] ∧
    (pending State.reset (.memRead 8192)).inbox = [.memRead 8192, .command 0] ∧
    (pending State.reset (.memWrite 8192 5)).inbox = [.memWrite 8192 5, .command 0] ∧
    8191 < State.reset.params.msize ∧ State.reset.params.msize ≤ 8192 := by decide

theorem witness_ResetEventGivesResetState :
    (pending faulted .reset).inbox = [.reset, .command 0] ∧
    (pending faulted (.resetDuring 5)).inbox = [.resetDuring 5, .command 0] ∧
    HostEvent.reset.isReset = true ∧ (HostEvent.resetDuring 5).isReset = true ∧
    faulted.faulted = true := by decide

theorem witness_RegistersReadBack : Csr.tbase.writable = true ∧ Csr.obase.writable = true := by decide

theorem witness_MemoryReadsAfterWrites : (2 : Nat) < 3 ∧ 16 ≤ 19 ∧ 19 < 16 + [1, 7, 14, 8].length := by
  decide

theorem witness_FaultEntryWritesFaultRegisters : (1 : Nat) ≤ 31 ∧ Csr.nblk.writable = true := by decide

/-! ## Faults and invariants -/

theorem witness_FaultsArePrecise :
    ∃ t, (Instr.glog 3 1).wellFormed = true ∧ (regs [(2, 7)]).faulted = false ∧
      exec (.glog 3 1) (regs [(2, 7)]) = .next t ∧ t.faulted = true :=
  ⟨_, by decide, by decide, rfl, by decide⟩

theorem witness_FaultStateIsLeftByResetOnly :
    faulted.faulted = true ∧
    (pending faulted (.command 0x01200009)).inbox = [.command 0x01200009, .command 0] ∧
    ∃ t, (pending faulted (.memWrite 3 9)).inbox = [.memWrite 3 9, .command 0] ∧
      step (pending faulted (.memWrite 3 9)) = .next t ∧ (HostEvent.memWrite 3 9).isReset = false :=
  ⟨by decide, by decide, _, by decide, rfl, by decide⟩

/-- A step that writes a polynomial register, from registers of all three kinds of R23. -/
theorem witness_StepKeepsPolynomialInvariant :
    ∃ t, (pending (polys [0, 0] [1, 2]) (.command 0x24201000)).polysOk ∧
      step (pending (polys [0, 0] [1, 2]) (.command 0x24201000)) = .next t :=
  ⟨_, by decide, rfl⟩

/-- A step that stores at the last byte of `M`. -/
theorem witness_StepKeepsMemoryCanonical :
    ∃ t, (pending (poke (regs [(1, 0x1FFF)]) 16 [1, 7]) (.command 0x03210000)).memOk ∧
      step (pending (poke (regs [(1, 0x1FFF)]) 16 [1, 7]) (.command 0x03210000)) = .next t :=
  ⟨_, by decide, rfl⟩

/-- A step that faults, from a state without a fault, and one from a faulted state. -/
theorem witness_StepKeepsFaultRegisters :
    (∃ t, (pending State.reset (.command 0x11210000)).faultRegsOk ∧
      step (pending State.reset (.command 0x11210000)) = .next t) ∧
    (∃ t, (pending faulted .reset).faultRegsOk ∧ step (pending faulted .reset) = .next t) :=
  ⟨⟨_, by decide, rfl⟩, ⟨_, by decide, rfl⟩⟩

theorem witness_StepKeepsParameters :
    ∃ t, step (pending State.reset .reset) = .next t := ⟨_, rfl⟩

theorem witness_OnlyFourCommandsWritePolynomials :
    ∃ t, step (pending (regs [(5, 1)]) (.command 0x26350000)) = .next t ∧
      t.getP 3 ≠ (pending (regs [(5, 1)]) (.command 0x26350000)).getP 3 :=
  ⟨_, rfl, by decide⟩

theorem witness_OnlyCsrwWritesBaseRegisters :
    ∃ t, Csr.ebase.writable = true ∧
      step (pending (regs [(1, 0x80)]) (.command 0x05100007)) = .next t ∧
      t.getCsr .ebase ≠ (pending (regs [(1, 0x80)]) (.command 0x05100007)).getCsr .ebase :=
  ⟨_, by decide, rfl, by decide⟩

/-! ## Frames: every command answers a next state without a fault somewhere -/

theorem witness_ScalarCommandsChangeOnlyTheirDestination :
    (∃ t, exec (.li 1 5) State.reset = .next t ∧ t.faulted = false) ∧
    (∃ t, exec (.ldb 1 2) State.reset = .next t ∧ t.faulted = false) ∧
    (∃ t, exec (.csrr 1 .nblk) State.reset = .next t ∧ t.faulted = false) ∧
    (∃ t, exec (.gexp 1 2) State.reset = .next t ∧ t.faulted = false) ∧
    (∃ t, exec (.glog 1 2) (regs [(2, 255)]) = .next t ∧ t.faulted = false) ∧
    (∃ t, exec (.gadd 1 2 3) State.reset = .next t ∧ t.faulted = false) ∧
    (∃ t, exec (.gmul 1 2 3) State.reset = .next t ∧ t.faulted = false) ∧
    (∃ t, exec (.plen 1 2) State.reset = .next t ∧ t.faulted = false) ∧
    (∃ t, exec (.pidx 1 0 2) (polys [9] []) = .next t ∧ t.faulted = false) :=
  ⟨⟨_, rfl, by decide⟩, ⟨_, rfl, by decide⟩, ⟨_, rfl, by decide⟩, ⟨_, rfl, by decide⟩,
    ⟨_, rfl, by decide⟩, ⟨_, rfl, by decide⟩, ⟨_, rfl, by decide⟩, ⟨_, rfl, by decide⟩,
    ⟨_, rfl, by decide⟩⟩

theorem witness_PolynomialCommandsChangeOnlyTheirDestination :
    (∃ t, exec (.pld 0 1 2 3) (poke (regs [(2, 1)]) 0 [7]) = .next t ∧ t.faulted = false) ∧
    (∃ t, exec (.pmul 2 0 1) (polys [5] [7]) = .next t ∧ t.faulted = false) ∧
    (∃ t, exec (.pmod 2 0 1) (polys [7, 7] [2]) = .next t ∧ t.faulted = false) ∧
    (∃ t, exec (.pgen 0 1) State.reset = .next t ∧ t.faulted = false) :=
  ⟨⟨_, rfl, by decide⟩, ⟨_, rfl, by decide⟩, ⟨_, rfl, by decide⟩, ⟨_, rfl, by decide⟩⟩

theorem witness_StoringCommandsChangeOnlyTheirBytes :
    (∃ t, exec (.stb 1 2) State.reset = .next t ∧ t.faulted = false) ∧
    (∃ t, exec (.pst 0 2) (polys [5, 6] []) = .next t ∧ t.faulted = false) ∧
    (∃ t, exec (.ecc1 1 2 3 4) (poke (regs [(2, 1), (3, 2), (4, 9)]) 0 [7]) = .next t ∧
      t.faulted = false) ∧
    (∃ t, exec .eccb p4 = .next t ∧ t.faulted = false) ∧
    (∃ t, exec (.ilv 2) (poke p4 0x80 p4ecc) = .next t ∧ t.faulted = false) :=
  ⟨⟨_, rfl, by decide⟩, ⟨_, rfl, by decide⟩, ⟨_, rfl, by decide⟩, ⟨_, rfl, by decide⟩,
    ⟨_, rfl, by decide⟩⟩

theorem witness_NopAndCsrwChangeOnlyTheirDestination :
    (∃ t, exec .nop State.reset = .next t ∧ t.faulted = false) ∧
    (∃ t, exec (.csrw 1 .dbase) (regs [(1, 4)]) = .next t ∧ t.faulted = false) :=
  ⟨⟨_, rfl, by decide⟩, ⟨_, rfl, by decide⟩⟩

/-! ## Commands: each clause, where it meets the next -/

theorem witness_NopDoesNothing : opOf 0x00000001 = 0x00 ∧ (0x00000001 : Word).toNat % 2 ^ 24 ≠ 0 := by
  decide

theorem witness_LiWritesSignExtendedImmediate :
    opOf 0x01010000 = 0x01 ∧ (0x01010000 : Word).toNat / 2 ^ 16 % 16 ≠ 0 ∧
    State.reset.faulted = false := by decide

theorem witness_LdbLoadsZeroExtendedByte :
    opOf 0x02001000 = 0x02 ∧ (0x02001000 : Word).toNat % 2 ^ 16 ≠ 0 ∧
    (regs [(1, 0x2000)]).faulted = false ∧
    (regs [(1, 0x2000)]).params.msize ≤ ((regs [(1, 0x2000)]).getX 1).toNat ∧
    (regs [(1, 0x1FFF)]).faulted = false ∧
    ((regs [(1, 0x1FFF)]).getX 1).toNat < (regs [(1, 0x1FFF)]).params.msize := by decide

theorem witness_StbStoresLowByte :
    opOf 0x03001000 = 0x03 ∧ (0x03001000 : Word).toNat % 2 ^ 16 ≠ 0 ∧
    (regs [(1, 0x2000)]).faulted = false ∧
    (regs [(1, 0x2000)]).params.msize ≤ ((regs [(1, 0x2000)]).getX 1).toNat ∧
    (regs [(1, 0x1FFF)]).faulted = false ∧
    ((regs [(1, 0x1FFF)]).getX 1).toNat < (regs [(1, 0x1FFF)]).params.msize := by decide

theorem witness_CsrrReadsCsr :
    opOf 0x04010000 = 0x04 ∧ (0x04010000 : Word).toNat / 2 ^ 16 % 16 ≠ 0 ∧
    opOf 0x04100009 = 0x04 ∧ 8 < (0x04100009 : Word).toNat % 2 ^ 16 ∧
    State.reset.faulted = false ∧ State.reset.faultRegsOk ∧ Csr.fcmd.writable = false := by decide

theorem witness_CsrwWritesReadWriteCsr :
    opOf 0x05010004 = 0x05 ∧ (0x05010004 : Word).toNat / 2 ^ 16 % 16 ≠ 0 ∧
    (0x05100003 : Word).toNat % 2 ^ 16 < 4 ∧ 8 < (0x05100009 : Word).toNat % 2 ^ 16 ∧
    opOf 0x05100003 = 0x05 ∧ opOf 0x05100009 = 0x05 ∧
    State.reset.faulted = false ∧ Csr.tbase.writable = true ∧ Csr.fcmd.writable = false := by decide

theorem witness_TablesAreThePowersOfAlpha : (254 : Nat) < 255 ∧ (0x8E : Byte) ≠ 0 := by decide

theorem witness_GexpAndGlogAreInverse : (0x01 : Byte) ≠ 0 ∧ (0xFF : Byte) ≠ 0 := by decide

theorem witness_GmulIsTheFieldProduct :
    logTable 0x8E = some 254 ∧ logTable 0x02 = some 1 := by decide

theorem witness_GexpLooksUpSignedIndex :
    opOf 0x10120001 = 0x10 ∧ (0x10120001 : Word).toNat % 2 ^ 16 ≠ 0 ∧
    (regs [(1, 0x80000000)]).faulted = false := by decide

theorem witness_GlogLooksUpLogarithm :
    opOf 0x11210001 = 0x11 ∧ (0x11210001 : Word).toNat % 2 ^ 16 ≠ 0 ∧
    (regs [(1, 256)]).faulted = false ∧ 255 < ((regs [(1, 256)]).getX 1).toNat ∧
    (regs []).faulted = false ∧ ((regs []).getX 1).toNat = 0 ∧
    (regs [(1, 255)]).faulted = false ∧ 1 ≤ ((regs [(1, 255)]).getX 1).toNat ∧
    ((regs [(1, 255)]).getX 1).toNat ≤ 255 := by decide

theorem witness_GaddIsExclusiveOr :
    opOf 0x12000100 = 0x12 ∧ (0x12000100 : Word).toNat % 2 ^ 12 ≠ 0 ∧
    (regs [(1, 256)]).faulted = false ∧ 255 < ((regs [(1, 256)]).getX 1).toNat ∧
    (regs [(1, 255), (2, 256)]).faulted = false ∧
    ((regs [(1, 255), (2, 256)]).getX 1).toNat ≤ 255 ∧
    255 < ((regs [(1, 255), (2, 256)]).getX 2).toNat ∧
    ((regs [(1, 255), (2, 255)]).getX 2).toNat ≤ 255 := by decide

theorem witness_GmulIsFieldProductOfOperands :
    opOf 0x13000100 = 0x13 ∧ (0x13000100 : Word).toNat % 2 ^ 12 ≠ 0 ∧
    (regs [(1, 256)]).faulted = false ∧ 255 < ((regs [(1, 256)]).getX 1).toNat ∧
    (regs [(1, 255), (2, 256)]).faulted = false ∧
    ((regs [(1, 255), (2, 256)]).getX 1).toNat ≤ 255 ∧
    255 < ((regs [(1, 255), (2, 256)]).getX 2).toNat ∧
    ((regs [(1, 255), (2, 255)]).getX 2).toNat ≤ 255 := by decide

theorem witness_ConstructTrimsAndShifts :
    ([0, 0, 0x12, 0] : List Byte).getD 1 0 = 0 ∧ ([0, 0, 0x12, 0] : List Byte).getD 2 0 ≠ 0 := by decide

theorem witness_PmulIsConvolution :
    ([2, 0, 5] : Poly) ≠ [] ∧ ([3, 1] : Poly) ≠ [] ∧ ([2, 0, 5] : Poly).getD 0 0 ≠ 0 ∧
    ([3, 1] : Poly).getD 0 0 ≠ 0 ∧ (∀ v ∈ ([0, 0] : Poly), v = 0) := by decide

theorem witness_PmodRunsPassByPass :
    ([1, 3, 2] : Poly) ≠ [] ∧ ([5, 6] : Poly).length < ([1, 3, 2] : Poly).length ∧
    ([1, 3, 2] : Poly).length ≤ ([0, 0, 0] : Poly).length ∧ ([0, 0, 0] : Poly).getD 0 0 = 0 ∧
    ([1, 3, 2] : Poly).length ≤ ([0x12, 0x34, 0x56] : Poly).length ∧
    logTable (([0x12, 0x34, 0x56] : Poly).getD 0 0) = some 224 ∧
    logTable (([1, 3, 2] : Poly).getD 0 0) = some 0 := by decide

theorem witness_PmodIsTheDivisionRemainder :
    ([1, 3, 2] : Poly).getD 0 0 ≠ 0 ∧ pmod [0x12, 0x34, 0x56, 0, 0] [1, 3, 2] = .ok [0x98, 0xE8] ∧
    ([1, 3, 2] : Poly).length ≤ ([0x12, 0x34, 0x56, 0, 0] : Poly).length := by decide

theorem witness_PldConstructsFromMemory :
    opOf 0x20000001 = 0x20 ∧ (0x20000001 : Word).toNat % 2 ^ 8 ≠ 0 ∧
    opOf 0x20400000 = 0x20 ∧ 4 ≤ (0x20400000 : Word).toNat / 2 ^ 20 % 16 ∧
    (regs [(1, 0x1FFE), (2, 3)]).faulted = false ∧ ¬ InRange (regs [(1, 0x1FFE), (2, 3)]) 0x1FFE 3 ∧
    InRange (regs [(1, 0x1FFE), (2, 2)]) 0x1FFE 2 ∧
    (let s : State :=
      { poke (regs [(1, 0x22), (2, 3), (3, 2)]) 0x22 [0x12, 0, 0x34] with params := ⟨4, 8192⟩ }
     s.faulted = false ∧ InRange s 0x22 3 ∧
      s.params.lmax < (construct (s.memRead 0x22 3) 2).length ∧
      (construct (s.memRead 0x22 3) 1).length ≤ s.params.lmax) := by decide

theorem witness_PstStoresCoefficients :
    opOf 0x21001000 = 0x21 ∧ (0x21001000 : Word).toNat % 2 ^ 16 ≠ 0 ∧
    opOf 0x21400000 = 0x21 ∧ 4 ≤ (0x21400000 : Word).toNat / 2 ^ 20 % 16 ∧
    (polys [1, 2] []).faulted = false ∧
    ¬ InRange (polys [1, 2] []) 0x1FFF ((polys [1, 2] []).getP 0).length ∧
    InRange (polys [1, 2] []) 0x1FFE ((polys [1, 2] []).getP 0).length ∧
    InRange (polys [1, 2] []) 0xFFFFFFFF ((polys [1, 2] []).getP 1).length := by decide

theorem witness_PlenWritesLength :
    opOf 0x22001000 = 0x22 ∧ (0x22001000 : Word).toNat % 2 ^ 16 ≠ 0 ∧
    opOf 0x22040000 = 0x22 ∧ 4 ≤ (0x22040000 : Word).toNat / 2 ^ 16 % 16 ∧
    State.reset.faulted = false := by decide

theorem witness_PidxReadsCoefficient :
    opOf 0x23000100 = 0x23 ∧ (0x23000100 : Word).toNat % 2 ^ 12 ≠ 0 ∧
    opOf 0x23040000 = 0x23 ∧ 4 ≤ (0x23040000 : Word).toNat / 2 ^ 16 % 16 ∧
    (polys [1, 3] []).faulted = false ∧ ((polys [1, 3] []).getP 0).length ≤ 2 ∧
    1 < ((polys [1, 3] []).getP 0).length := by decide

theorem witness_PmulWritesProduct :
    opOf 0x24000100 = 0x24 ∧ (0x24000100 : Word).toNat % 2 ^ 12 ≠ 0 ∧
    opOf 0x24444000 = 0x24 ∧ 4 ≤ (0x24444000 : Word).toNat / 2 ^ 20 % 16 ∧
    4 ≤ (0x24444000 : Word).toNat / 2 ^ 16 % 16 ∧ 4 ≤ (0x24444000 : Word).toNat / 2 ^ 12 % 16 ∧
    (polys [1] []).faulted = false ∧ ((polys [1] []).getP 1).length = 0 ∧
    (let s : State := { polys [1, 2] [1, 3] with params := ⟨2, 8192⟩ }
     s.faulted = false ∧ (s.getP 0).length ≠ 0 ∧ (s.getP 1).length ≠ 0 ∧
      s.params.lmax < (s.getP 0).length + (s.getP 1).length - 1) ∧
    (let s : State := { polys [1, 2] [1, 3] with params := ⟨3, 8192⟩ }
     s.faulted = false ∧ (s.getP 0).length + (s.getP 1).length - 1 ≤ s.params.lmax) := by decide

theorem witness_PmodWritesRemainder :
    opOf 0x25000100 = 0x25 ∧ (0x25000100 : Word).toNat % 2 ^ 12 ≠ 0 ∧
    opOf 0x25444000 = 0x25 ∧ 4 ≤ (0x25444000 : Word).toNat / 2 ^ 20 % 16 ∧
    4 ≤ (0x25444000 : Word).toNat / 2 ^ 16 % 16 ∧ 4 ≤ (0x25444000 : Word).toNat / 2 ^ 12 % 16 ∧
    (polys [1] []).faulted = false ∧ (polys [1] []).getP 1 = [] ∧
    (polys [0, 0] [1, 3]).faulted = false ∧ (polys [0, 0] [1, 3]).getP 1 ≠ [] ∧
    ((polys [0, 0] [1, 3]).getP 1).length ≤ ((polys [0, 0] [1, 3]).getP 0).length ∧
    ((polys [0, 0] [1, 3]).getP 0).getD 0 0 = 0 ∧
    ((polys [0] [1, 3]).getP 0).length < ((polys [0] [1, 3]).getP 1).length ∧
    (polys [5, 6] [1, 3]).faulted = false ∧ (polys [5, 6] [1, 3]).getP 1 ≠ [] ∧
    ((polys [5, 6] [1, 3]).getP 1).length ≤ ((polys [5, 6] [1, 3]).getP 0).length ∧
    ((polys [5, 6] [1, 3]).getP 0).getD 0 0 ≠ 0 ∧ ((polys [5, 6] [1, 3]).getP 1).getD 0 0 ≠ 0 := by
  decide

theorem witness_PgenWritesGenerator :
    opOf 0x26001000 = 0x26 ∧ (0x26001000 : Word).toNat % 2 ^ 16 ≠ 0 ∧
    opOf 0x26400000 = 0x26 ∧ 4 ≤ (0x26400000 : Word).toNat / 2 ^ 20 % 16 ∧
    (regs [(5, 256)]).faulted = false ∧
    (regs [(5, 256)]).params.lmax < ((regs [(5, 256)]).getX 5).toNat + 1 ∧
    ((regs [(5, 255)]).getX 5).toNat + 1 ≤ (regs [(5, 255)]).params.lmax := by decide

theorem witness_EccNeverFaults : ∀ v ∈ ([0, 0, 0] : List Byte), v = 0 := by decide

theorem witness_DataWithEccIsMultipleOfGenerator : ecc [0x01, 0xF6] 2 = .ok [0x00, 0xF7] := by decide

theorem witness_EccIsLinear :
    ([0x12, 0x34, 0x56] : List Byte).length = ([0x01, 0x03, 0x02] : List Byte).length ∧
    ecc [0x12, 0x34, 0x56] 2 = .ok [0x98, 0xE8] ∧ ecc [0x01, 0x03, 0x02] 2 = .ok [0x00, 0x00] := by
  decide

/-- Two data sequences of length 2 and two ECC sequences of length 3, the last byte of the last one;
then one block. -/
theorem witness_InterleaveKeepsEveryByte :
    (let ds : List (List Byte) := [[1, 2], [3, 4]]
     let es : List (List Byte) := [[5, 6, 7], [8, 9, 10]]
     (∀ q ∈ ds, q.length = 2) ∧ 1 < 2 ∧ 1 < ds.length ∧ (∀ q ∈ es, q.length = 3) ∧ 2 < 3 ∧
      1 < es.length) ∧
    (∃ ds es : List (List Byte), ∃ d e : List Byte, ds = [d] ∧ es = [e] ∧ d = [1, 2] ∧ e = [5, 6, 7]) :=
  ⟨by decide, [[1, 2]], [[5, 6, 7]], [1, 2], [5, 6, 7], rfl, rfl, rfl, rfl⟩

theorem witness_Ecc1StoresBlockEcc :
    opOf 0x30000001 = 0x30 ∧ (0x30000001 : Word).toNat % 2 ^ 8 ≠ 0 ∧
    State.reset.faulted = false ∧ State.reset.params.lmax < 256 + 1 ∧
    255 + 1 ≤ State.reset.params.lmax ∧ State.reset.params.lmax < 250 + 7 ∧
    250 + 6 ≤ State.reset.params.lmax ∧ ¬ InRange State.reset 0x1FFF 2 ∧
    InRange State.reset 0x1FFF 1 ∧ InRange State.reset 0xFFFFFFFF 0 ∧
    (let s := regs [(1, 0x1FFF), (2, 250), (3, 7), (4, 0x1FFE)]
     s.faulted = false ∧ (s.getX 1).toNat = 0x1FFF ∧ (s.getX 2).toNat = 250 ∧
      (s.getX 3).toNat = 7 ∧ (s.getX 4).toNat = 0x1FFE) := by decide

/-- F45, F33, then the table with `LMAX` too small for a generator and for a block, then `DBASE` and
`EBASE` past the end, then P4, which passes. -/
theorem witness_EccbStoresPackedEcc :
    opOf 0x31100000 = 0x31 ∧ (0x31100000 : Word).toNat % 2 ^ 24 ≠ 0 ∧
    (let s : State := { State.reset with tbase := 0x1FFF, nblk := 1 }
     s.faulted = false ∧ ¬ InRange s s.tbase.toNat (2 * nblk s)) ∧
    (let s : State := { poke State.reset 0 [6, 3, 3, 6] with nblk := 2 }
     s.faulted = false ∧ InRange s s.tbase.toNat (2 * nblk s) ∧ 1 < nblk s ∧
      (∀ q < 1, BlockPasses s q) ∧ total s 1 < data s 1) ∧
    (let s : State := { p4 with params := ⟨3, 8192⟩ }
     s.faulted = false ∧ 0 < nblk s ∧ data s 0 ≤ total s 0 ∧ s.params.lmax < ec s 0 + 1) ∧
    (let s : State := { p4 with params := ⟨5, 8192⟩ }
     s.faulted = false ∧ data s 0 ≤ total s 0 ∧ ec s 0 + 1 ≤ s.params.lmax ∧
      s.params.lmax < total s 0) ∧
    (let s : State := { p4 with dbase := 0x1FFF }
     s.faulted = false ∧ TablePasses s ∧ ¬ InRange s s.dbase.toNat (dataBefore s (nblk s))) ∧
    (let s : State := { p4 with ebase := 0x1FFF }
     s.faulted = false ∧ TablePasses s ∧ InRange s s.dbase.toNat (dataBefore s (nblk s)) ∧
      ¬ InRange s s.ebase.toNat (ecBefore s (nblk s))) ∧
    p4.faulted = false ∧ BlocksPass p4 := by decide

theorem witness_IlvStoresInterleavedStream :
    opOf 0x32010000 = 0x32 ∧ (0x32010000 : Word).toNat % 2 ^ 20 ≠ 0 ∧
    (let s : State := { poke p4 0x80 p4ecc with obase := 0x1FEE }
     s.faulted = false ∧ BlocksPass s ∧
      ¬ InRange s s.obase.toNat (dataBefore s (nblk s) + ecBefore s (nblk s))) ∧
    (let s : State := { poke p4 0x80 p4ecc with obase := 0x1FED }
     s.faulted = false ∧ BlocksPass s ∧
      InRange s s.obase.toNat (dataBefore s (nblk s) + ecBefore s (nblk s))) := by decide

end Sys2Proof.Tests
end

section
/-! The parameters of the core, `LMAX` and `MSIZE` (R10, R11), over a command and over a step. -/

namespace Sys2Proof.Machine

/-- A command that is done has written a scalar register, a polynomial register, a CSR or memory, and
none of these writes reaches the parameters. -/
theorem done_params {i : Instr} {s t : State} (h : Done i s t) : t.params = s.params := by
  cases i with
  | nop => exact congrArg State.params h
  | li | csrr | gexp | plen => rw [h, State.setX_params]
  | ldb => rw [h.2, State.setX_params]
  | glog | gadd | gmul => obtain ⟨_, _, _, _, rfl⟩ := h; exact State.setX_params ..
  | pidx => obtain ⟨_, _, rfl⟩ := h; exact State.setX_params ..
  | pgen => rw [h.2, State.setP_params]
  | pld | pmul | pmod => obtain ⟨_, _, rfl⟩ := h; exact State.setP_params ..
  | csrw => rw [h.2, State.setCsr_params]
  | stb | pst => rw [h.2, State.memWrite_params]
  | ecc1 => obtain ⟨_, _, _, _, _, _, rfl⟩ := h; exact State.memWrite_params ..
  | eccb => obtain ⟨_, _, _, _, rfl⟩ := h; exact State.memWrite_params ..
  | ilv =>
    obtain ⟨_, _, _, rfl⟩ := h
    rw [State.setX_params, State.memWrite_params]

/-- Discarded (R165), faulted (R163) or done, a command keeps the parameters. -/
theorem exec_params {i : Instr} {s t : State} (h : exec i s = .next t) : t.params = s.params := by
  obtain ⟨-, rfl⟩ | ⟨-, ⟨r, rfl⟩ | hdone⟩ := exec_cases h
  · rfl
  · exact State.enterFault_params ..
  · exact done_params hdone

/-- A word on `cmd`, legal or not, keeps the parameters. -/
theorem acceptCommand_params {w : Word} {s t : State} (h : acceptCommand w s = .next t) :
    t.params = s.params := by
  obtain ⟨i, -, hexec⟩ | ⟨e, -, ⟨-, rfl⟩ | ⟨-, rfl⟩⟩ := acceptCommand_cases h
  · exact exec_params hexec
  · rfl
  · exact State.enterFault_params ..

end Sys2Proof.Machine

namespace Sys2Proof.Claims

open Sys2Proof.Machine

/-- Settles O19, event by event: a command, a host write, a host read or readback, and `rst` all keep
the parameters, as does a step with nothing pending. -/
theorem stepKeepsParameters : Obligations.StepKeepsParameters := by
  intro s t h
  obtain ⟨-, rfl⟩ | ⟨e, rest, -, ⟨w, -, hcmd⟩ | ⟨a, b, -, -, rfl⟩ | ⟨-, rfl⟩ | ⟨-, rfl⟩⟩ :=
    step_cases h
  · rfl
  · simpa using acceptCommand_params hcmd
  · exact State.memWrite_params ..
  · rfl
  · exact State.afterReset_params _

end Sys2Proof.Claims
end

section
/-! What a step can do to the state, said once with a name per case, and what a done command writes:
the inversion lemmas behind the invariants and the whole-machine rules. -/

namespace Sys2Proof.Machine

/-- Everything a step can do (R20, R36): hold the registers and memory (nothing pending, a read, a
readback, or a word discarded in the FAULT state), write the host's byte, reset, enter a fault, or
complete a command. -/
inductive StepEffect (s t : State) : Prop where
  | held (rest : List HostEvent) (eq : t = { s with inbox := rest })
  | hostWrote (rest : List HostEvent) (addr : Nat) (b : Byte) (inside : addr < s.params.msize)
      (eq : t = ({ s with inbox := rest } : State).memWrite addr [b])
  | wasReset (e : HostEvent) (rest : List HostEvent) (pending : s.inbox = e :: rest)
      (isReset : e.isReset = true) (eq : t = ({ s with inbox := rest } : State).afterReset)
  | faulted (rest : List HostEvent) (r : Trap) (w : Word) (before : s.faulted = false)
      (eq : t = ({ s with inbox := rest } : State).enterFault r w)
  | completed (rest : List HostEvent) (w : Word) (i : Instr) (before : s.faulted = false)
      (pending : s.inbox = .command w :: rest) (legal : decode w = .ok i)
      (done : Done i { s with inbox := rest } t)

/-- A command word is discarded, raises a fault, or is a command that completes. -/
theorem acceptCommand_effect {s t : State} {w : Word} {rest : List HostEvent}
    (hin : s.inbox = .command w :: rest)
    (h : acceptCommand w { s with inbox := rest } = .next t) : StepEffect s t := by
  obtain ⟨i, hdec, hexec⟩ | ⟨-, -, ⟨-, rfl⟩ | ⟨hf, rfl⟩⟩ := acceptCommand_cases h
  · obtain ⟨-, rfl⟩ | ⟨hf, ⟨r, rfl⟩ | hdone⟩ := exec_cases hexec
    · exact .held rest rfl
    · exact .faulted rest r _ hf rfl
    · exact .completed rest w i hf hin hdec hdone
  · exact .held rest rfl
  · exact .faulted rest _ w hf rfl

/-- The cases of `StepEffect` are all there are. -/
theorem step_effect {s t : State} (h : step s = .next t) : StepEffect s t := by
  obtain ⟨-, rfl⟩ | ⟨e, rest, hin, ⟨w, rfl, hcmd⟩ | ⟨a, b, -, ha, rfl⟩ | ⟨-, rfl⟩ | ⟨he, rfl⟩⟩ :=
    step_cases h
  · exact .held t.inbox rfl
  · exact acceptCommand_effect hin hcmd
  · exact .hostWrote rest a b ha rfl
  · exact .held rest rfl
  · refine .wasReset e rest hin ?_ rfl
    obtain rfl | ⟨w, rfl⟩ := he <;> rfl

/-- The commands with the polynomial register `k` as their destination (R113, R118, R120, R122). -/
def WritesPoly (i : Instr) (k : PReg) : Prop :=
  (∃ b c d, i = .pld k b c d) ∨ (∃ b c, i = .pmul k b c) ∨ (∃ b c, i = .pmod k b c) ∨
    ∃ b, i = .pgen k b

/-- Where a completed command writes: scalar registers and memory only, one read-write CSR, or one
polynomial register (R150). -/
theorem done_writes {i : Instr} {s t : State} (h : Done i s t) :
    (∃ x mem, t = { s with x := x, mem := mem }) ∨
      (∃ a q, i = .csrw a q ∧ t = s.setCsr q (s.getX a)) ∨
      ∃ k c, WritesPoly i k ∧ t = s.setP k c := by
  cases i with
  | nop | li | csrr | gexp | plen => cases h; exact .inl ⟨_, _, rfl⟩
  | ldb | stb | pst => cases h.2; exact .inl ⟨_, _, rfl⟩
  | glog | gadd | gmul => obtain ⟨_, _, _, _, rfl⟩ := h; exact .inl ⟨_, _, rfl⟩
  | pidx => obtain ⟨_, _, rfl⟩ := h; exact .inl ⟨_, _, rfl⟩
  | ecc1 => obtain ⟨_, _, _, _, _, _, rfl⟩ := h; exact .inl ⟨_, _, rfl⟩
  | eccb => obtain ⟨_, _, _, _, rfl⟩ := h; exact .inl ⟨_, _, rfl⟩
  | ilv => obtain ⟨_, _, _, rfl⟩ := h; exact .inl ⟨_, _, rfl⟩
  | csrw a q => exact .inr (.inl ⟨a, q, rfl, h.2⟩)
  | pld k b c d => exact .inr (.inr ⟨k, _, .inl ⟨b, c, d, rfl⟩, h.2.2⟩)
  | pmul k b c => exact .inr (.inr ⟨k, _, .inr (.inl ⟨b, c, rfl⟩), h.2.2⟩)
  | pmod k b c =>
    obtain ⟨m, -, rfl⟩ := h
    exact .inr (.inr ⟨k, m, .inr (.inr (.inl ⟨b, c, rfl⟩)), rfl⟩)
  | pgen k b => exact .inr (.inr ⟨k, _, .inr (.inr (.inr ⟨b, rfl⟩)), h.2⟩)

end Sys2Proof.Machine
end

section
/-! The invariant of the polynomial registers (R23): what `construct`, `pmul`, `pmod` and `pgen` answer
meets it. -/

namespace Sys2Proof.Machine

/-! The field product of nonzero elements is nonzero (R97), so leading coefficients multiply. -/

/-- Every nonzero byte has a logarithm (R92). -/
theorem logTable_isSome {v : Byte} (h : v ≠ 0#8) : (logTable v).isSome = true := by
  revert v; decide

/-- `EXP` holds no zero (R91). -/
theorem expTable_ne_zero (n : Nat) : expTable (n % Config.expModulus) ≠ 0#8 := by
  have table : ∀ i < 16, ∀ j < 16, (expRows.getD i []).getD j 0 ≠ 0#8 := by decide
  have hn : n % Config.expModulus < 255 := Nat.mod_lt n (by decide)
  exact table _ (by omega) _ (by omega)

theorem gmul_ne_zero {a b : Byte} (ha : a ≠ 0#8) (hb : b ≠ 0#8) : gmul a b ≠ 0#8 := by
  obtain ⟨la, hla⟩ := Option.isSome_iff_exists.1 (logTable_isSome ha)
  obtain ⟨lb, hlb⟩ := Option.isSome_iff_exists.1 (logTable_isSome hb)
  rw [gmul, hla, hlb]
  exact expTable_ne_zero _

/-! Products (R117). -/

/-- A sum of zeros is all zero. -/
theorem addAligned_zeros {a b : List Byte} (ha : ∀ x ∈ a, x = 0#8) (hb : ∀ x ∈ b, x = 0#8) :
    ∀ x ∈ addAligned a b, x = 0#8 := by
  induction a generalizing b with
  | nil => simpa [addAligned] using hb
  | cons x a ih =>
    cases b with
    | nil => simpa [addAligned] using ha
    | cons y b =>
      rw [List.forall_mem_cons] at ha hb
      simp only [addAligned, List.forall_mem_cons]
      exact ⟨by rw [ha.1, hb.1, gadd_self], ih ha.2 hb.2⟩

/-- Where every coefficient product is zero, the product is all zero. -/
theorem pmul_zeros {a b : Poly} (h : ∀ x ∈ a, ∀ y ∈ b, gmul x y = 0#8) :
    ∀ z ∈ pmul a b, z = 0#8 := by
  induction a with
  | nil => simp [pmul]
  | cons x a ih =>
    rw [List.forall_mem_cons] at h
    have row : ∀ z ∈ b.map (gmul x), z = 0#8 := by simpa using h.1
    cases a with
    | nil => exact row
    | cons x' a => exact addAligned_zeros row (List.forall_mem_cons.2 ⟨rfl, ih h.2⟩)

/-- The leading coefficient of a product is the product of the leading coefficients. -/
theorem pmul_head (x y : Byte) (a b : Poly) : (pmul (x :: a) (y :: b)).head? = some (gmul x y) := by
  cases a <;> simp [pmul, addAligned]

theorem pmul_length {a b : Poly} (ha : a ≠ []) (hb : b ≠ []) :
    (pmul a b).length = a.length + b.length - 1 := by
  have hb := List.length_pos_iff.2 hb
  induction a with
  | nil => exact absurd rfl ha
  | cons x a ih =>
    cases a with
    | nil => simp [pmul]
    | cons x' a =>
      have ih := ih (List.cons_ne_nil x' a)
      simp only [pmul, addAligned_length, List.length_map, List.length_cons] at ih ⊢
      omega

/-! The four results. -/

theorem construct_polyOk {lmax n : Nat} {c : List Byte} (h : constructLength c n ≤ lmax) :
    polyOk lmax (construct c n) := by
  refine ⟨construct_length c n ▸ h, ?_⟩
  have hhead := trim_head c
  cases htrim : trim c with
  | nil =>
    right; right
    simp [construct, htrim]
  | cons b rest =>
    right; left
    simpa [construct, htrim] using hhead

/-- A product has a nonzero leading coefficient when both operands do, and is all zero when one is. -/
theorem pmul_polyOk {lmax : Nat} {a b : Poly} (ha : polyOk lmax a) (hb : polyOk lmax b)
    (hna : a ≠ []) (hnb : b ≠ []) (hlen : a.length + b.length - 1 ≤ lmax) :
    polyOk lmax (pmul a b) := by
  refine ⟨(pmul_length hna hnb).trans_le hlen, .inr ?_⟩
  obtain ⟨-, ha⟩ := ha
  obtain ⟨-, hb⟩ := hb
  obtain ha | ha := ha.resolve_left hna
  · obtain hb | hb := hb.resolve_left hnb
    · left
      obtain ⟨x, a, rfl⟩ := List.exists_cons_of_ne_nil hna
      obtain ⟨y, b, rfl⟩ := List.exists_cons_of_ne_nil hnb
      rw [pmul_head]
      exact fun h => gmul_ne_zero (by simpa using ha) (by simpa using hb) (Option.some.inj h)
    · right
      exact pmul_zeros fun x _ y hy => by rw [hb y hy]; exact gmul_zero_right x
  · right
    exact pmul_zeros fun x hx y _ => by rw [ha x hx]; exact gmul_zero_left y

/-- A remainder is the dividend as it was, or what a pass left, which `construct` trimmed (R119). -/
theorem pmodLoop_polyOk {lmax fuel : Nat} {cur div m : Poly} (hcur : polyOk lmax cur)
    (h : pmodLoop fuel cur div = .ok m) : polyOk lmax m := by
  induction fuel generalizing cur with
  | zero => cases h; exact hcur
  | succ fuel ih =>
    unfold pmodLoop at h
    split at h
    · cases h; exact hcur
    · simp only [bind_ok_iff] at h
      obtain ⟨lc, -, ld, -, h⟩ := h
      refine ih (construct_polyOk ?_) h
      calc constructLength _ 0 ≤ (subScaled cur div _).length := trim_length_le _
        _ = cur.length := subScaled_length ..
        _ ≤ lmax := hcur.1

theorem pmod_polyOk {lmax : Nat} {cur div m : Poly} (hcur : polyOk lmax cur)
    (h : pmod cur div = .ok m) : polyOk lmax m := by
  unfold pmod at h
  split at h
  · cases h
  · exact pmodLoop_polyOk hcur h

/-- A generator is monic (R121). -/
theorem pgen_head (n : Nat) : (pgen n).head? = some 1#8 := by
  induction n with
  | zero => rfl
  | succ n ih =>
    obtain ⟨rest, hrest⟩ := List.head?_eq_some_iff.1 ih
    rw [pgen, hrest, pmul_head]
    rfl

theorem pgen_length (n : Nat) : (pgen n).length = n + 1 := by
  induction n with
  | zero => rfl
  | succ n ih =>
    have hne : pgen n ≠ [] := List.ne_nil_of_length_eq_add_one ih
    rw [pgen, pmul_length hne (List.cons_ne_nil _ _), ih]
    rfl

theorem pgen_polyOk {lmax n : Nat} (h : n + 1 ≤ lmax) : polyOk lmax (pgen n) := by
  refine ⟨(pgen_length n).trans_le h, .inr (.inl ?_)⟩
  rw [pgen_head]
  decide

/-! The four registers. -/

theorem polysOk_setP {s : State} (hs : s.polysOk) {c : Poly} (hc : polyOk s.params.lmax c)
    (k : PReg) : (s.setP k c).polysOk := by
  intro l
  rw [State.getP_setP]
  split
  · exact hc
  · exact hs l

theorem polyOk_nil (lmax : Nat) : polyOk lmax [] := ⟨Nat.zero_le _, .inl rfl⟩

theorem afterReset_polysOk (s : State) : s.afterReset.polysOk := by
  intro k
  rw [State.afterReset_getP]
  exact polyOk_nil _

/-- A completed command keeps R23: only the four commands of `WritesPoly` write a polynomial register,
and each writes a result that meets it. -/
theorem done_polysOk {i : Instr} {s t : State} (hs : s.polysOk) (h : Done i s t) : t.polysOk := by
  obtain ⟨x, mem, rfl⟩ | ⟨a, q, -, rfl⟩ | ⟨k, -, hi, -⟩ := done_writes h
  · exact hs
  · intro k
    simpa using hs k
  · obtain ⟨b, c, d, rfl⟩ | ⟨b, c, rfl⟩ | ⟨b, c, rfl⟩ | ⟨b, rfl⟩ := hi
    · obtain ⟨-, hlen, rfl⟩ := h
      exact polysOk_setP hs (construct_polyOk hlen) k
    · obtain ⟨⟨hb, hc⟩, hlen, rfl⟩ := h
      rw [Ne, List.length_eq_zero_iff] at hb hc
      exact polysOk_setP hs (pmul_polyOk (hs b) (hs c) hb hc hlen) k
    · obtain ⟨m, hm, rfl⟩ := h
      exact polysOk_setP hs (pmod_polyOk (hs b) hm) k
    · obtain ⟨hlen, rfl⟩ := h
      exact polysOk_setP hs (pgen_polyOk hlen) k

end Sys2Proof.Machine

namespace Sys2Proof.Claims

open Sys2Proof.Machine

/-- Settles O16: of what a step can do, only a completed command and `rst` write a polynomial
register. -/
theorem stepKeepsPolynomialInvariant : Obligations.StepKeepsPolynomialInvariant := by
  intro s t hs h
  cases step_effect h with
  | held rest eq => exact eq ▸ hs
  | hostWrote rest addr b inside eq => exact eq ▸ hs
  | wasReset e rest pending isReset eq => exact eq ▸ afterReset_polysOk _
  | faulted rest r w before eq => exact eq ▸ hs
  | completed rest w i before pending legal done =>
    exact done_polysOk (s := { s with inbox := rest }) hs done

end Sys2Proof.Claims
end

section
/-! The fault registers (R27 to R30): fault entry, `rst` and no other operation writes them. -/

namespace Sys2Proof.Machine

/-- The fault register invariant speaks of `STATUS`, `CAUSE`, `FINFO` and `FCMD` alone. -/
theorem faultRegsOk_congr {s t : State} (hs : s.faultRegsOk) (hstatus : t.status = s.status)
    (hcause : t.cause = s.cause) (hfinfo : t.finfo = s.finfo) (hfcmd : t.fcmd = s.fcmd) :
    t.faultRegsOk := by
  unfold State.faultRegsOk State.faulted at *
  rwa [hstatus, hcause, hfinfo, hfcmd]

theorem Cause.code_range (c : Cause) : 1 ≤ c.code.toNat ∧ c.code.toNat ≤ 6 := by
  cases c <;> decide

/-- Fault entry (R163) sets `STATUS` to 1, where it was 0, and `CAUSE` to a code. -/
theorem enterFault_faultRegsOk {s : State} (hs : s.faultRegsOk) (hf : s.faulted = false) (r : Trap)
    (w : Word) : (s.enterFault r w).faultRegsOk := by
  obtain ⟨hstatus, -⟩ : s.status = 0 ∧ _ := by
    simpa only [State.faultRegsOk, hf, Bool.false_eq_true, if_false] using hs
  rw [State.faultRegsOk, if_pos (State.enterFault_faulted s r w)]
  exact ⟨by rw [State.enterFault_status, hstatus]; rfl, r.cause.code_range⟩

theorem afterReset_faultRegsOk (s : State) : s.afterReset.faultRegsOk := by
  rw [State.faultRegsOk, if_neg (by simp)]
  exact ⟨rfl, rfl, rfl, rfl⟩

/-- A completed command writes none of the four fault registers. -/
theorem done_faultRegsOk {i : Instr} {s t : State} (hs : s.faultRegsOk) (h : Done i s t) :
    t.faultRegsOk := by
  obtain ⟨x, mem, rfl⟩ | ⟨a, q, -, rfl⟩ | ⟨k, c, -, rfl⟩ := done_writes h
  · exact hs
  · exact faultRegsOk_congr hs (State.setCsr_status ..) (State.setCsr_cause ..)
      (State.setCsr_finfo ..) (State.setCsr_fcmd ..)
  · exact hs

end Sys2Proof.Machine

namespace Sys2Proof.Claims

open Sys2Proof.Machine

/-- Settles O18: of what a step can do, only fault entry, from a state without a fault, and `rst` write
a fault register. -/
theorem stepKeepsFaultRegisters : Obligations.StepKeepsFaultRegisters := by
  intro s t hs h
  cases step_effect h with
  | held rest eq => exact eq ▸ hs
  | hostWrote rest addr b inside eq => exact eq ▸ hs
  | wasReset e rest pending isReset eq => exact eq ▸ afterReset_faultRegsOk _
  | faulted rest r w before eq =>
    exact eq ▸ enterFault_faultRegsOk (s := { s with inbox := rest }) hs before r w
  | completed rest w i before pending legal done =>
    exact done_faultRegsOk (s := { s with inbox := rest }) hs done

end Sys2Proof.Claims
end

section
/-! Who writes the polynomial registers (R150) and the read-write CSRs (R31). -/

namespace Sys2Proof.Machine

/-- No CSR is part of the scalar registers, the memory or the inbox. -/
theorem State.getCsr_with (s : State) (x : Vector Word 16) (mem : Memory) (inbox : List HostEvent)
    (q : Csr) : { s with x := x, mem := mem, inbox := inbox }.getCsr q = s.getCsr q := by
  cases q <;> rfl

/-- Fault entry keeps the read-write CSRs (R163). -/
theorem State.enterFault_getCsr (s : State) (r : Trap) (w : Word) {q : Csr}
    (h : q.writable = true) : (s.enterFault r w).getCsr q = s.getCsr q := by
  cases q with
  | status | cause | finfo | fcmd => cases h
  | tbase | nblk | dbase | ebase | obase => rfl

end Sys2Proof.Machine

namespace Sys2Proof.Claims

open Sys2Proof.Machine

/-- Settles O20: of what a step can do, `rst` and a completed command alone reach the polynomial
registers, and of the commands those that name the register as their destination. -/
theorem onlyFourCommandsWritePolynomials : Obligations.OnlyFourCommandsWritePolynomials := by
  intro s t k h hne
  cases step_effect h with
  | held rest eq => subst eq; exact absurd rfl hne
  | hostWrote rest addr b inside eq => subst eq; exact absurd rfl hne
  | faulted rest r w before eq => subst eq; exact absurd rfl hne
  | wasReset e rest pending isReset eq => exact ⟨e, rest, pending, .inl isReset⟩
  | completed rest w i before pending legal done =>
    obtain ⟨x, mem, rfl⟩ | ⟨a, q, -, rfl⟩ | ⟨l, c, hi, rfl⟩ := done_writes done
    · exact absurd rfl hne
    · exact absurd (State.setCsr_getP ..) hne
    · have hkl : k = l := by
        by_contra hkl
        exact hne (State.getP_setP_other _ _ _ _ hkl)
      subst hkl
      refine ⟨_, rest, pending, .inr ⟨w, rfl, ?_⟩⟩
      simpa only [legal, Except.ok.injEq, WritesPoly] using hi

/-- Settles O21: of what a step can do, `rst` and a completed command alone reach the read-write CSRs,
and of the commands `CSRW`, which writes the one CSR it names. -/
theorem onlyCsrwWritesBaseRegisters : Obligations.OnlyCsrwWritesBaseRegisters := by
  intro s t c hc h hne
  cases step_effect h with
  | held rest eq => subst eq; exact absurd (State.getCsr_with ..) hne
  | hostWrote rest addr b inside eq => subst eq; exact absurd (State.getCsr_with ..) hne
  | faulted rest r w before eq =>
    subst eq
    exact absurd ((State.enterFault_getCsr _ r w hc).trans (State.getCsr_with ..)) hne
  | wasReset e rest pending isReset eq => exact ⟨e, rest, pending, .inl isReset⟩
  | completed rest w i before pending legal done =>
    obtain ⟨x, mem, rfl⟩ | ⟨a, q, rfl, rfl⟩ | ⟨k, p, -, rfl⟩ := done_writes done
    · exact absurd (State.getCsr_with ..) hne
    · rw [State.getCsr_setCsr] at hne ⊢
      have hqc : q = c ∧ q.writable = true := by
        by_contra hqc
        rw [if_neg hqc] at hne
        exact hne (State.getCsr_with ..)
      obtain ⟨rfl, hq⟩ := hqc
      exact ⟨_, rest, pending, .inr ⟨w, a, rfl, legal, if_pos ⟨rfl, hq⟩⟩⟩
    · exact absurd ((State.setP_getCsr ..).trans (State.getCsr_with ..)) hne

end Sys2Proof.Claims
end

section
/-! One host event per step (R20, R35, R36), the reset values (R37) and the register files. -/

namespace Sys2Proof.Machine

/-! The step by the inbox, and each port. -/

theorem step_idle {s : State} (h : s.inbox = []) : step s = .next s := by
  rw [step, nextEvent, h]

theorem step_event {s : State} {e : HostEvent} {rest : List HostEvent} (h : s.inbox = e :: rest) :
    step s = acceptEvent e { s with inbox := rest } := by
  rw [step, nextEvent, h]

theorem acceptCommand_legal {w : Word} {i : Instr} (h : decode w = .ok i) (s : State) :
    acceptCommand w s = exec i s := by
  rw [acceptCommand, h]

theorem acceptCommand_illegal {w : Word} {e : Illegal} (h : decode w = .error e) (s : State) :
    acceptCommand w s = execIllegal w s := by
  rw [acceptCommand, h]

theorem State.memPort_inside {s : State} {addr : Nat} (h : addr < s.params.msize) :
    s.memPort addr = some (s.readByte addr) := if_pos h

theorem hostRead_inside {s : State} {addr : Nat} (h : addr < s.params.msize) :
    hostRead addr s = .next s := by
  rw [hostRead, State.memPort_inside h]

theorem hostRead_outside {s : State} {addr : Nat} (h : s.params.msize ≤ addr) :
    hostRead addr s = .fault (.hostAddress addr) := by
  rw [hostRead, State.memPort, if_neg (Nat.not_lt.2 h)]

theorem hostWrite_inside {s : State} {addr : Nat} (b : Byte) (h : addr < s.params.msize) :
    hostWrite addr b s = .next (s.memWrite addr [b]) := if_pos h

theorem hostWrite_outside {s : State} {addr : Nat} (b : Byte) (h : s.params.msize ≤ addr) :
    hostWrite addr b s = .fault (.hostAddress addr) := if_neg (Nat.not_lt.2 h)

/-- A byte written reads back, and every other byte is as before (R53). -/
theorem State.readByte_memWrite_byte (s : State) (a addr : Nat) (b : Byte) :
    (s.memWrite a [b]).readByte addr = if a = addr then b else s.readByte addr := by
  rw [State.readByte, State.memWrite_mem, memInsertAll, memInsertAll, memLookup_memInsert]
  split <;> rfl

/-- The frame of a write of one byte: that byte alone. -/
theorem memWrite_byte_changesOnly (s : State) (addr : Nat) (b : Byte) :
    ChangesOnly s (s.memWrite addr [b]) Claims.nothing Claims.nothing Claims.nothing (· = addr) where
  x _ _ := rfl
  p _ _ := rfl
  rw c _ _ := State.memWrite_getCsr s addr [b] c
  fault _ c _ := State.memWrite_getCsr s addr [b] c
  mem a ha := by rw [State.readByte_memWrite_byte, if_neg (Ne.symm ha)]
  params := rfl
  epoch := rfl
  inbox := rfl

end Sys2Proof.Machine

namespace Sys2Proof.Claims

open Sys2Proof.Machine

/-- Settles O5, by the decoder's answer and, for an illegal word, by `FAULT`. -/
theorem stepRunsDecodedCommand : Obligations.StepRunsDecodedCommand := by
  intro s w rest hin s'
  have hstep : step s = acceptCommand w s' := step_event hin
  refine ⟨hstep, fun i hi _ => ?_, fun e he hf => ?_, fun e he hf => ?_⟩
  · rw [hstep, acceptCommand_legal hi]
  · rw [hstep, acceptCommand_illegal he]
    exact command_error _ hf
  · rw [hstep, acceptCommand_illegal he]
    exact command_discard _ hf

/-- Settles O6, event by event. -/
theorem hostAccessesTouchOnlyMemory : Obligations.HostAccessesTouchOnlyMemory := by
  intro s rest addr b
  refine ⟨step_idle, fun h => step_event h, fun h ha => ⟨?_, State.memPort_inside ha⟩,
    fun h ha => ?_, fun h ha => ?_⟩
  · exact (step_event h).trans (hostRead_inside ha)
  · refine ⟨(step_event h).trans (hostWrite_inside b ha), ?_, rfl, fun c => ?_,
      memWrite_byte_changesOnly _ addr b⟩
    · rw [State.readByte_memWrite_byte, if_pos rfl]
    · exact (State.memWrite_getCsr ..).trans (State.getCsr_with ..)
  · obtain h | h := h
    · exact (step_event h).trans (hostRead_outside ha)
    · exact (step_event h).trans (hostWrite_outside b ha)

/-- Settles O8: `rst` of the reset state gives its registers again, so the laws of `afterReset` say
what they hold. -/
theorem resetStateValues : Obligations.ResetStateValues :=
  ⟨State.afterReset_getX State.reset, State.afterReset_getP State.reset,
    State.afterReset_getCsr State.reset, State.afterReset_faulted State.reset, memLookup_nil, rfl⟩

/-- Settles O10, invariant by invariant. -/
theorem resetMeetsInvariants : Obligations.ResetMeetsInvariants := by
  have hmem : State.reset.memOk := ⟨reset_mem_wf, fun _ hc => absurd hc List.not_mem_nil⟩
  have hparams : State.reset.params.valid := by decide
  exact ⟨⟨afterReset_polysOk State.reset, hmem, afterReset_faultRegsOk State.reset⟩, hparams⟩

/-- Settles O11, one register file after the other. -/
theorem registersReadBack : Obligations.RegistersReadBack := by
  intro s i j v k l c m n
  refine ⟨State.getX_setX .., State.getP_setP .., fun hm => ?_⟩
  rw [State.getCsr_setCsr, hm]
  simp only [and_true]

end Sys2Proof.Claims
end

section
/-! The memory `M`: what it reads after writes (R52, R53), and that every step keeps it canonical
and inside `M` (R50, R54): each store has passed the range check of R54 for all it writes. -/

namespace Sys2Proof.Machine

/-! The length of an interleaved stream (R137, R139). -/

/-- How many indices below `m` a sequence of `n` bytes has. -/
theorem sum_range_lt (m n : Nat) :
    ((List.range m).map fun i => if i < n then 1 else 0).sum = min m n := by
  induction m with
  | zero => simp
  | succ m ih =>
    rw [List.range_succ, List.map_append, List.sum_append, ih, List.map_singleton,
      List.sum_singleton]
    split <;> omega

theorem column_cons_length (q : List Byte) (seqs : List (List Byte)) (i : Nat) :
    (column (q :: seqs) i).length = (if i < q.length then 1 else 0) + (column seqs i).length := by
  by_cases h : i < q.length
  · simp [column, h, Nat.add_comm]
  · simp [column, h]

/-- The columns up to any index past the longest sequence hold every byte. -/
theorem range_columns_length {seqs : List (List Byte)} {m : Nat} (h : maxLength seqs ≤ m) :
    ((List.range m).flatMap (column seqs)).length = (seqs.map List.length).sum := by
  rw [List.length_flatMap]
  induction seqs with
  | nil => simp [column]
  | cons q seqs ih =>
    obtain ⟨hq, hseqs⟩ := max_le_iff.1 h
    simp only [column_cons_length, List.sum_map_add, sum_range_lt, List.map_cons, List.sum_cons,
      min_eq_right hq, ih hseqs]

theorem columns_length (seqs : List (List Byte)) :
    (columns seqs).length = (seqs.map List.length).sum := range_columns_length le_rfl

theorem interleave_length (data ecc : List (List Byte)) :
    (interleave data ecc).length = (data.map List.length).sum + (ecc.map List.length).sum := by
  rw [interleave, List.length_append, columns_length, columns_length]

/-- `ILV` writes as many bytes as it checks the range of (R139). -/
theorem ilvStream_length (s : State) (blocks : List RsBlock) :
    (ilvStream s blocks).length = sumData blocks + sumEc blocks := by
  rw [ilvStream, interleave_length, sumData, sumEc, runs_lengths (State.memRead_length ..).ge,
    runs_lengths (State.memRead_length ..).ge]

/-! Writes. -/

theorem State.memRead_getElem? (s : State) (addr : Nat) {k n : Nat} (h : k < n) :
    (s.memRead addr n)[k]? = some (s.readByte (addr + k)) := by
  simp [State.memRead, h]

/-- A byte reads as the last write left it (R53). -/
theorem State.readByte_memWrite (s : State) (addr : Nat) (bs : List Byte) (a : Nat) :
    (s.memWrite addr bs).readByte a =
      if addr ≤ a ∧ a < addr + bs.length then bs.getD (a - addr) 0 else s.readByte a := by
  induction bs generalizing s addr with
  | nil => rw [if_neg (by simp)]; rfl
  | cons b bs ih =>
    have hsplit : s.memWrite addr (b :: bs) = (s.memWrite addr [b]).memWrite (addr + 1) bs := rfl
    rw [hsplit, ih, State.readByte_memWrite_byte, List.length_cons]
    obtain hlt | rfl | hgt := lt_trichotomy a addr
    · rw [if_neg (by omega), if_neg (by omega), if_neg (by omega)]
    · rw [if_neg (by omega), if_pos rfl, if_pos (by omega), Nat.sub_self]
      rfl
    · have hidx : a - addr = (a - (addr + 1)) + 1 := by omega
      rw [if_neg (by omega : ¬ addr = a), hidx, List.getD_cons_succ]
      exact if_congr (by omega) rfl rfl

/-- A write in range keeps the memory canonical and inside `M`. -/
theorem memWrite_memOk {s : State} (hs : s.memOk) {addr : Nat} {bs : List Byte}
    (h : Claims.InRange s addr bs.length) : (s.memWrite addr bs).memOk := by
  obtain ⟨hwf, hin⟩ := hs
  refine ⟨memWrite_wf addr bs hwf, fun c hc => ?_⟩
  rw [State.memWrite_params]
  obtain ⟨hlo, hhi⟩ | hc := mem_memInsertAll hc
  · obtain h | h := h <;> omega
  · exact hin c hc

theorem afterReset_memOk (s : State) : s.afterReset.memOk :=
  ⟨reset_mem_wf, fun _ hc => absurd hc List.not_mem_nil⟩

/-! Commands. -/

/-- A completed command leaves memory as it was, or has written bytes that are all in range: the
stores are `STB`, `PST`, `ECC1`, `ECCB` and `ILV`, and each checks as many bytes as it writes. -/
theorem done_mem {i : Instr} {s t : State} (h : Done i s t) :
    t.mem = s.mem ∨
      ∃ addr bs, Claims.InRange s addr bs.length ∧ t.mem = (s.memWrite addr bs).mem := by
  cases i with
  | nop | li | csrr | gexp | plen => cases h; exact .inl rfl
  | ldb | pgen => rw [h.2]; exact .inl rfl
  | glog | gadd | gmul => obtain ⟨_, _, _, _, rfl⟩ := h; exact .inl rfl
  | pidx => obtain ⟨_, _, rfl⟩ := h; exact .inl rfl
  | pld | pmul | pmod => obtain ⟨_, _, rfl⟩ := h; exact .inl rfl
  | csrw => rw [h.2]; exact .inl (State.setCsr_mem ..)
  | stb a b =>
    obtain ⟨hin, rfl⟩ := h
    exact .inr ⟨_, _, .inr hin, rfl⟩
  | pst a b =>
    obtain ⟨hin, rfl⟩ := h
    exact .inr ⟨_, _, hin, rfl⟩
  | ecc1 a b c d =>
    obtain ⟨-, -, -, hin, e, he, rfl⟩ := h
    exact .inr ⟨_, e, (ecc_length he).symm ▸ hin, rfl⟩
  | eccb =>
    obtain ⟨blocks, out, hblocks, hout, rfl⟩ := h
    obtain ⟨-, -, -, -, hin⟩ := checkedBlocks_ok_iff.1 hblocks
    exact .inr ⟨_, out, (eccBlocks_length hout).symm ▸ hin, rfl⟩
  | ilv a =>
    obtain ⟨blocks, -, hin, rfl⟩ := h
    exact .inr ⟨_, ilvStream s blocks, (ilvStream_length s blocks).symm ▸ hin, rfl⟩

/-- A completed command keeps the memory canonical and inside `M`. -/
theorem done_memOk {i : Instr} {s t : State} (hs : s.memOk) (h : Done i s t) : t.memOk := by
  rw [State.memOk, done_params h]
  obtain hmem | ⟨addr, bs, hin, hmem⟩ := done_mem h
  · rw [hmem]
    exact hs
  · rw [hmem]
    exact memWrite_memOk hs hin

end Sys2Proof.Machine

namespace Sys2Proof.Claims

open Sys2Proof.Machine

/-- Settles O17: of what a step can do, only a host write inside the window, `rst` and a completed
command write memory. -/
theorem stepKeepsMemoryCanonical : Obligations.StepKeepsMemoryCanonical := by
  intro s t hs h
  cases step_effect h with
  | held rest eq => exact eq ▸ hs
  | hostWrote rest addr b inside eq =>
    exact eq ▸ memWrite_memOk (s := { s with inbox := rest }) hs (.inr inside)
  | wasReset e rest pending isReset eq => exact eq ▸ afterReset_memOk _
  | faulted rest r w before eq => exact eq ▸ hs
  | completed rest w i before pending legal done =>
    exact done_memOk (s := { s with inbox := rest }) hs done

/-- Settles O12, from the length and the bytes of `MemRead` and the law of a byte after a write. -/
theorem memoryReadsAfterWrites : Obligations.MemoryReadsAfterWrites := by
  intro s addr n bs a
  exact ⟨State.memRead_length s addr n, fun k hk => State.memRead_getElem? s addr hk,
    State.readByte_memWrite s addr bs a⟩

end Sys2Proof.Claims
end

section
/-! The decoder and the encoder are inverse to each other (R75, R76), and the illegal words are those
of the five items of R77. -/

namespace Sys2Proof

/-- A format R word with the given fields is that format of them. -/
theorem formatR_eq {w : Word} {op : BitVec 8} {a b c d : BitVec 4}
    (hop : (fieldOp w).toNat = op.toNat) (ha : fieldA w = a) (hb : fieldB w = b)
    (hc : fieldC w = c) (hd : fieldD w = d) (hz : fieldZ w = 0) : formatR op a b c d = w := by
  rw [← BitVec.eq_of_toNat_eq hop, ← ha, ← hb, ← hc, ← hd, formatR_fields hz]

/-- A format I word with the given fields is that format of them. -/
theorem formatI_eq {w : Word} {op : BitVec 8} {imm : BitVec 16}
    (hop : (fieldOp w).toNat = op.toNat) (hzb : fieldZb w = 0) (himm : fieldImm w = imm) :
    formatI op (fieldA w) imm = w := by
  rw [← BitVec.eq_of_toNat_eq hop, ← himm, formatI_fields hzb]

@[simp] theorem zbMustBeZero_formatI (op : BitVec 8) (a : BitVec 4) (imm : BitVec 16) :
    zbMustBeZero (formatI op a imm) = .ok () :=
  zbMustBeZero_ok_iff.2 (fieldZb_formatI ..)

/-- The decoder reads a command back from its word (R75): every field of the word is read back, so
every check of the row passes; `CSRR` and `CSRW` look the number of their CSR up again. -/
theorem decode_encode {i : Instr} (h : i.wellFormed = true) : decode (encode i) = .ok i := by
  cases i with
  | csrr a csr =>
    have hcsr : readableCsr csr.number = .ok csr := readableCsr_ok_iff.2 rfl
    simp [encode, decode, hcsr]
  | csrw a csr =>
    have hcsr : writableCsr csr.number = .ok csr := writableCsr_ok_iff.2 ⟨rfl, h⟩
    simp [encode, decode, hcsr]
  | nop | li | ldb | stb | gexp | glog | gadd | gmul => simp [encode, decode]
  | pld | pst | plen | pidx | pmul | pmod | pgen => simp [encode, decode]
  | ecc1 | eccb | ilv => simp [encode, decode]

/-- A word that decodes is the word of the command it decodes to, and the command is well-formed
(R76): row by row, the checks fix every field the command does not hold. -/
theorem encode_of_decode {w : Word} {i : Instr} (h : decode w = .ok i) :
    i.wellFormed = true ∧ encode i = w := by
  unfold decode at h
  split at h
  all_goals simp only [legal_bind_iff, mustBeZero_ok_iff, zbMustBeZero_ok_iff, pregOf_ok_iff,
    readableCsr_ok_iff, writableCsr_ok_iff, exists_const, Except.ok.injEq] at h
  -- NOP, ECCB
  case h_1 hop | h_19 hop =>
    obtain ⟨ha, hb, hc, hd, hz, rfl⟩ := h
    exact ⟨rfl, formatR_eq hop ha hb hc hd hz⟩
  -- LDB, STB, GEXP, GLOG
  case h_3 hop | h_4 hop | h_7 hop | h_8 hop =>
    obtain ⟨hc, hd, hz, rfl⟩ := h
    exact ⟨rfl, formatR_eq hop rfl rfl hc hd hz⟩
  -- GADD, GMUL
  case h_9 hop | h_10 hop =>
    obtain ⟨hd, hz, rfl⟩ := h
    exact ⟨rfl, formatR_eq hop rfl rfl rfl hd hz⟩
  -- PST, PGEN
  case h_12 hop | h_17 hop =>
    obtain ⟨hc, hd, hz, _, ha, rfl⟩ := h
    exact ⟨rfl, formatR_eq hop ha rfl hc hd hz⟩
  -- PMUL, PMOD
  case h_15 hop | h_16 hop =>
    obtain ⟨hd, hz, _, ha, _, hb, _, hc, rfl⟩ := h
    exact ⟨rfl, formatR_eq hop ha hb hc hd hz⟩
  -- LI
  case h_2 hop =>
    obtain ⟨hzb, rfl⟩ := h
    exact ⟨rfl, formatI_eq hop hzb rfl⟩
  -- CSRR
  case h_5 hop =>
    obtain ⟨hzb, _, himm, rfl⟩ := h
    exact ⟨rfl, formatI_eq hop hzb himm⟩
  -- CSRW
  case h_6 hop =>
    obtain ⟨hzb, _, ⟨himm, hcsr⟩, rfl⟩ := h
    exact ⟨hcsr, formatI_eq hop hzb himm⟩
  -- PLD
  case h_11 hop =>
    obtain ⟨hz, _, ha, rfl⟩ := h
    exact ⟨rfl, formatR_eq hop ha rfl rfl rfl hz⟩
  -- PLEN
  case h_13 hop =>
    obtain ⟨hc, hd, hz, _, hb, rfl⟩ := h
    exact ⟨rfl, formatR_eq hop rfl hb hc hd hz⟩
  -- PIDX
  case h_14 hop =>
    obtain ⟨hd, hz, _, hb, rfl⟩ := h
    exact ⟨rfl, formatR_eq hop rfl hb rfl hd hz⟩
  -- ECC1
  case h_18 hop =>
    obtain ⟨hz, rfl⟩ := h
    exact ⟨rfl, formatR_eq hop rfl rfl rfl rfl hz⟩
  -- ILV
  case h_20 hop =>
    obtain ⟨hb, hc, hd, hz, rfl⟩ := h
    exact ⟨rfl, formatR_eq hop rfl hb hc hd hz⟩
  case h_21 => cases h

/-- Decoding and encoding are inverse to each other on the well-formed commands (R76). -/
theorem decode_ok_iff {w : Word} {i : Instr} :
    decode w = .ok i ↔ i.wellFormed = true ∧ encode i = w :=
  ⟨encode_of_decode, fun ⟨hwf, hw⟩ => hw ▸ decode_encode hwf⟩

/-! Which fields a check lets through, as numbers (R71 to R73, R77). -/

theorem exists_legal_bind_iff {α β : Type} {x : Except Illegal α} {f : α → Except Illegal β} :
    (∃ b, (x >>= f) = .ok b) ↔ ∃ a, x = .ok a ∧ ∃ b, f a = .ok b := by
  cases x <;> simp

theorem exists_mustBeZero_iff {n : Nat} {v : BitVec n} :
    (∃ u, mustBeZero v = .ok u) ↔ v.toNat = 0 := by
  simp only [mustBeZero_ok_iff, exists_const, BitVec.toNat_eq, BitVec.ofNat_eq_ofNat,
    BitVec.toNat_zero]

theorem exists_zbMustBeZero_iff {w : Word} :
    (∃ u, zbMustBeZero w = .ok u) ↔ (fieldZb w).toNat = 0 := by
  simp only [zbMustBeZero_ok_iff, exists_const, BitVec.toNat_eq, BitVec.ofNat_eq_ofNat,
    BitVec.toNat_zero]

theorem exists_pregOf_iff {v : BitVec 4} : (∃ r, pregOf v = .ok r) ↔ v.toNat < 4 := by
  revert v; decide

theorem exists_csrNumber_iff {n : Nat} : (∃ c : Csr, n = c.number.toNat) ↔ n ≤ 8 := by
  constructor
  · rintro ⟨c, rfl⟩
    cases c <;> decide
  · intro h
    obtain ⟨c, hc⟩ : ∃ c, csrOfNumber n = some c := by
      interval_cases n <;> exact ⟨_, rfl⟩
    exact ⟨c, csrOfNumber_some_iff.1 hc⟩

theorem Csr.writable_iff (c : Csr) : c.writable = true ↔ 4 ≤ c.number.toNat := by
  cases c <;> decide

theorem exists_readableCsr_iff {imm : BitVec 16} :
    (∃ c, readableCsr imm = .ok c) ↔ imm.toNat ≤ 8 := by
  simp only [readableCsr_ok_iff, ← BitVec.toNat_inj, exists_csrNumber_iff]

theorem exists_writableCsr_iff {imm : BitVec 16} :
    (∃ c, writableCsr imm = .ok c) ↔ 4 ≤ imm.toNat ∧ imm.toNat ≤ 8 := by
  rw [← exists_csrNumber_iff, ← exists_and_left]
  refine exists_congr fun c => ?_
  rw [writableCsr_ok_iff, c.writable_iff, ← BitVec.toNat_inj, and_comm]
  exact and_congr_left fun h => h ▸ .rfl

end Sys2Proof

namespace Sys2Proof.Claims

open Sys2Proof.Machine

theorem toNat_fieldOp_eq_opOf (w : Word) : (fieldOp w).toNat = opOf w := by
  rw [toNat_fieldOp, opOf]
  omega

/-- A word the decoder refuses raises `IllegalCommand` (R77). -/
theorem malformed_of_illegal {w : Word} {e : Illegal} (h : decode w = .error e) : Malformed w := by
  intro s hs
  rw [acceptCommand_illegal h]
  exact command_error _ hs

/-- Settles O1, by the law of the decoder after the encoder. -/
theorem decodeOfEncodeIsIdentity : Obligations.DecodeOfEncodeIsIdentity := fun _ => decode_encode

/-- Settles O2, by the decoder's answer: `decode_ok_iff` says which commands have the word. -/
theorem everyWordIsOneCommandOrIllegal : Obligations.EveryWordIsOneCommandOrIllegal := by
  intro w
  cases h : decode w with
  | ok i =>
    obtain ⟨hwf, hw⟩ := encode_of_decode h
    refine .inl ⟨i, rfl, hwf, hw, fun j hj hjw => ?_⟩
    have hdec : decode w = .ok j := decode_ok_iff.2 ⟨hj, hjw⟩
    exact Except.ok.inj (hdec.symm.trans h)
  | error e =>
    refine .inr ⟨⟨e, rfl⟩, fun j hj hjw => ?_, malformed_of_illegal h⟩
    have hdec : decode w = .ok j := decode_ok_iff.2 ⟨hj, hjw⟩
    cases hdec.symm.trans h

/-- Settles O3, row by row of the opcode map: the checks of a row, read as facts about the number of
the word, are the negation of the items of R77 that concern its opcode. -/
theorem illegalWordsAreTheFiveItems : Obligations.IllegalWordsAreTheFiveItems := by
  intro w
  refine ⟨?_, fun h => ?_⟩
  · unfold decode
    simp only [toNat_fieldOp_eq_opOf]
    split
    -- the reserved opcodes
    case h_21 => exact iff_of_true (fun ⟨_, h⟩ => nomatch h) (.inl (by simp_all))
    -- the twenty rows: what the checks let through, then what the items say of this opcode
    all_goals
      rename_i hop
      simp only [exists_legal_bind_iff, exists_and_right, exists_mustBeZero_iff,
        exists_zbMustBeZero_iff, exists_pregOf_iff, exists_readableCsr_iff, exists_writableCsr_iff,
        Except.ok.injEq, exists_eq', and_true]
      simp only [toNat_fieldA, toNat_fieldB, toNat_fieldC, toNat_fieldD, toNat_fieldZ,
        toNat_fieldZb, toNat_fieldImm]
      simp only [hop, List.mem_cons, List.not_mem_nil, or_false, false_or, false_and, true_and,
        Nat.reduceEqDiff, not_true_eq_false]
      omega
  · cases hdec : decode w with
    | ok i => exact absurd ⟨i, hdec⟩ h
    | error e => exact malformed_of_illegal hdec

/-- Settles O4: the decoder runs on the fourteen words. -/
theorem workedEncodingsDecode : Obligations.WorkedEncodingsDecode := by
  unfold Obligations.WorkedEncodingsDecode
  decide

end Sys2Proof.Claims
end

section
/-! The tables (40_field_arithmetic.md R90 to R93): `EXP` lists the powers of `α`, `LOG` is its
inverse. -/

namespace Sys2Proof.Machine

/-- Doubling a byte drops its bit 7, which reduction by 0x11D puts back as 0x1D (R90). -/
theorem xtime_eq (v : Byte) : xtime v = v <<< 1 ^^^ if v.getLsbD 7 then 0x1D#8 else 0#8 := by
  revert v; decide

/-- The recurrence as numbers (R90). -/
theorem toNat_xtime (v : Byte) : (xtime v).toNat =
    if v.toNat < 128 then 2 * v.toNat else (2 * v.toNat) ^^^ 0x11D := by
  revert v; decide

/-- What holds at every row and column of the printed tables holds of every exponent. -/
theorem forall_exponent_of_rows {P : Nat → Prop}
    (table : ∀ r < 16, ∀ c < 16, 16 * r + c < 255 → P (16 * r + c)) {i : Nat} (h : i < 255) :
    P i := by
  have hcell := table (i / 16) (by omega) (i % 16) (by omega)
  rw [Nat.div_add_mod] at hcell
  exact hcell h

/-- The printed contents of `EXP` follow the recurrence (R90, R91). -/
theorem expTable_succ {i : Nat} (h : i < 255) : expTable (i + 1) = xtime (expTable i) :=
  forall_exponent_of_rows (P := fun i => expTable (i + 1) = xtime (expTable i)) (by decide) h

/-- The printed contents of `LOG` look every power of `α` up (R92, R93). -/
theorem logTable_expTable {i : Nat} (h : i < 255) : logTable (expTable i) = some i :=
  forall_exponent_of_rows (P := fun i => logTable (expTable i) = some i) (by decide) h

/-- An entry of `LOG` is an exponent in 0..254, and `EXP` gives the byte back (R92, R93). -/
theorem expTable_of_logTable {v : Byte} {l : Nat} (h : logTable v = some l) :
    l < 255 ∧ expTable l = v := by
  have table : ∀ v : Byte, ∀ l ∈ logTable v, l < 255 ∧ expTable l = v := by decide
  exact table v l h

/-- Every nonzero byte is a power of `α`, with its exponent in `LOG` (R92). -/
theorem exists_logTable {v : Byte} (h : v ≠ 0#8) :
    ∃ l < 255, logTable v = some l ∧ expTable l = v := by
  obtain ⟨l, hl⟩ := Option.isSome_iff_exists.1 (logTable_isSome h)
  obtain ⟨hlt, hexp⟩ := expTable_of_logTable hl
  exact ⟨l, hlt, hl, hexp⟩

theorem expTable_ne_zero_of_lt {i : Nat} (h : i < 255) : expTable i ≠ 0#8 := by
  rw [← Nat.mod_eq_of_lt h]
  exact expTable_ne_zero i

/-- `gexp` reads an entry in 0..254 (R94). -/
theorem residue_lt (i : Int) : (i % 255).toNat < 255 := by omega

theorem gexp_add_period (i : Int) : gexp (i + 255) = gexp i := by
  unfold gexp
  congr 2
  exact Int.add_emod_right i 255

theorem gexp_natCast {l : Nat} (h : l < 255) : gexp l = expTable l := by
  have hmod : ((l : Int) % 255).toNat = l := by omega
  exact congrArg expTable hmod

theorem glog_zero : glog 0#8 = .error ⟨.logOfZero, 0⟩ := by
  rw [glog, logTable_zero]

end Sys2Proof.Machine

namespace Sys2Proof.Claims

open Sys2Proof.Machine

/-- Settles O32, from the recurrence of `EXP` and the two inverse laws of the tables. -/
theorem tablesAreThePowersOfAlpha : Obligations.TablesAreThePowersOfAlpha :=
  ⟨rfl, rfl, rfl, toNat_xtime, fun _ => expTable_succ, fun _ => expTable_ne_zero_of_lt,
    logTable_zero, fun _ => exists_logTable, fun _ => logTable_expTable⟩

/-- Settles O33: the residue modulo 255 is an index in 0..254, where the tables are inverse. -/
theorem gexpAndGlogAreInverse : Obligations.GexpAndGlogAreInverse := by
  refine ⟨fun i => ⟨rfl, gexp_add_period i, expTable_ne_zero_of_lt (residue_lt i),
    glog_ok_iff.2 (logTable_expTable (residue_lt i))⟩, rfl, rfl, rfl, rfl, glog_zero, ?_⟩
  intro v hv
  obtain ⟨l, hlt, hlog, hexp⟩ := exists_logTable hv
  exact ⟨l, by omega, glog_ok_iff.2 hlog, hlog, (gexp_natCast hlt).trans hexp⟩

end Sys2Proof.Claims
end

section
/-! The field product (R97): the shift-and-add product commutes with `xtime` in its first operand,
so it multiplies by `α^i` when that is `EXP[i]` and adds the exponents of two powers of `α`, as `gmul`
does. -/

namespace Sys2Proof.Claims

open Sys2Proof.Machine

/-! Exclusive or over a list. -/

theorem foldl_xor_map_xor (l : List Nat) (f g : Nat → Byte) (x y : Byte) :
    (l.map fun k => f k ^^^ g k).foldl (· ^^^ ·) (x ^^^ y) =
      (l.map f).foldl (· ^^^ ·) x ^^^ (l.map g).foldl (· ^^^ ·) y := by
  induction l generalizing x y with
  | nil => rfl
  | cons k l ih =>
    have swap : x ^^^ y ^^^ (f k ^^^ g k) = (x ^^^ f k) ^^^ (y ^^^ g k) := by ac_rfl
    simp only [List.map_cons, List.foldl_cons, swap, ih]

theorem foldl_xor_zeros (l : List Nat) (f : Nat → Byte) (h : ∀ k, f k = 0#8) :
    (l.map f).foldl (· ^^^ ·) 0#8 = 0#8 := by
  induction l with
  | nil => rfl
  | cons k l ih => simpa [h] using ih

/-! Multiplication by powers of `α` (R90). -/

theorem xtime_xor (a b : Byte) : xtime (a ^^^ b) = xtime a ^^^ xtime b := by
  have reduction : ∀ p q : Bool, (if p ^^ q then 0x1D#8 else 0#8) =
      (if p then 0x1D#8 else 0#8) ^^^ if q then 0x1D#8 else 0#8 := by decide
  rw [xtime_eq, xtime_eq, xtime_eq, BitVec.shiftLeft_xor_distrib, BitVec.getLsbD_xor, reduction]
  ac_rfl

theorem xtime_foldl_xor (l : List Nat) (f : Nat → Byte) (x : Byte) :
    xtime ((l.map f).foldl (· ^^^ ·) x) =
      (l.map fun k => xtime (f k)).foldl (· ^^^ ·) (xtime x) := by
  induction l generalizing x with
  | nil => rfl
  | cons k l ih => simp only [List.map_cons, List.foldl_cons, ih, xtime_xor]

theorem xtimes_xtime (a : Byte) (k : Nat) : xtimes (xtime a) k = xtime (xtimes a k) := by
  induction k with
  | zero => rfl
  | succ k ih => rw [xtimes, ih, xtimes]

theorem xtimes_zero_byte (k : Nat) : xtimes 0#8 k = 0#8 := by
  induction k with
  | zero => rfl
  | succ k ih => rw [xtimes, ih]; rfl

/-- `α^i · α^j = α^(i+j)`, the exponent modulo 255. -/
theorem xtimes_expTable {j : Nat} (hj : j < 255) (i : Nat) :
    xtimes (expTable j) i = expTable ((i + j) % 255) := by
  induction i with
  | zero => rw [Nat.zero_add, Nat.mod_eq_of_lt hj, xtimes]
  | succ i ih =>
    have hlt : (i + j) % 255 < 255 := Nat.mod_lt _ (by decide)
    rw [xtimes, ih, ← expTable_succ hlt]
    obtain hnext | ⟨hlast, hwrap⟩ : (i + 1 + j) % 255 = (i + j) % 255 + 1 ∨
        (i + j) % 255 + 1 = 255 ∧ (i + 1 + j) % 255 = 0 := by omega
    · rw [hnext]
    · rw [hlast, hwrap]
      rfl

/-! The shift-and-add product. -/

theorem shiftAndAdd_xor (a b c : Byte) :
    shiftAndAdd a (b ^^^ c) = shiftAndAdd a b ^^^ shiftAndAdd a c := by
  rw [shiftAndAdd, shiftAndAdd, shiftAndAdd, ← foldl_xor_map_xor]
  congr 2
  funext k
  rw [BitVec.getLsbD_xor]
  cases b.getLsbD k <;> cases c.getLsbD k <;> simp

theorem shiftAndAdd_xtime (a b : Byte) : shiftAndAdd (xtime a) b = xtime (shiftAndAdd a b) := by
  rw [shiftAndAdd, shiftAndAdd, xtime_foldl_xor]
  congr 2
  funext k
  split
  · exact xtimes_xtime a k
  · rfl

theorem shiftAndAdd_zero_left (b : Byte) : shiftAndAdd 0#8 b = 0#8 :=
  foldl_xor_zeros _ _ fun k => by rw [xtimes_zero_byte]; exact ite_self _

theorem shiftAndAdd_zero_right (a : Byte) : shiftAndAdd a 0#8 = 0#8 :=
  foldl_xor_zeros _ _ fun k => by simp

theorem one_shiftAndAdd (b : Byte) : shiftAndAdd 1#8 b = b := by
  revert b; decide

/-- Shift-and-add by `α^i` is `i` times a multiplication by `α`. -/
theorem shiftAndAdd_expTable {i : Nat} (h : i < 255) (b : Byte) :
    shiftAndAdd (expTable i) b = xtimes b i := by
  induction i with
  | zero => exact one_shiftAndAdd b
  | succ i ih => rw [expTable_succ (by omega), shiftAndAdd_xtime, ih (by omega), xtimes]

/-! The table product. -/

/-- Two powers of `α` multiply by the sum of their exponents (R97). -/
theorem gmul_of_logTable {a b : Byte} {la lb : Nat} (ha : logTable a = some la)
    (hb : logTable b = some lb) : gmul a b = expTable ((la + lb) % 255) := by
  rw [gmul, ha, hb]; rfl

/-- The exponent of a product of two powers of `α` (R97). -/
theorem logTable_gmul {a b : Byte} {la lb : Nat} (ha : logTable a = some la)
    (hb : logTable b = some lb) : logTable (gmul a b) = some ((la + lb) % 255) := by
  rw [gmul_of_logTable ha hb, logTable_expTable (Nat.mod_lt _ (by decide))]

/-- The two products agree: both are 0 with a zero operand, and add exponents with none. -/
theorem gmul_eq_shiftAndAdd (a b : Byte) : gmul a b = shiftAndAdd a b := by
  by_cases ha : a = 0#8
  · rw [ha, gmul_zero_left, shiftAndAdd_zero_left]
  by_cases hb : b = 0#8
  · rw [hb, gmul_zero_right, shiftAndAdd_zero_right]
  obtain ⟨la, hla, hloga, rfl⟩ := exists_logTable ha
  obtain ⟨lb, hlb, hlogb, rfl⟩ := exists_logTable hb
  rw [gmul_of_logTable hloga hlogb, shiftAndAdd_expTable hla, xtimes_expTable hlb]

theorem gmul_comm (a b : Byte) : gmul a b = gmul b a := by
  rw [gmul, gmul]
  cases logTable a <;> cases logTable b <;> simp [Nat.add_comm]

theorem gmul_one (a : Byte) : gmul a 1#8 = a := by
  rw [gmul_comm, gmul_eq_shiftAndAdd, one_shiftAndAdd]

theorem gmul_eq_zero_iff {a b : Byte} : gmul a b = 0#8 ↔ a = 0#8 ∨ b = 0#8 := by
  constructor
  · intro h
    by_contra hne
    rw [not_or] at hne
    exact gmul_ne_zero hne.1 hne.2 h
  · rintro (rfl | rfl)
    · exact gmul_zero_left b
    · exact gmul_zero_right a

theorem gmul_assoc (a b c : Byte) : gmul (gmul a b) c = gmul a (gmul b c) := by
  by_cases ha : a = 0#8
  · simp [ha]
  by_cases hb : b = 0#8
  · simp [hb]
  by_cases hc : c = 0#8
  · simp [hc]
  obtain ⟨la, -, hla, -⟩ := exists_logTable ha
  obtain ⟨lb, -, hlb, -⟩ := exists_logTable hb
  obtain ⟨lc, -, hlc, -⟩ := exists_logTable hc
  rw [gmul_of_logTable (logTable_gmul hla hlb) hlc, gmul_of_logTable hla (logTable_gmul hlb hlc),
    Nat.mod_add_mod, Nat.add_mod_mod, Nat.add_assoc]

theorem gmul_xor (a b c : Byte) : gmul a (b ^^^ c) = gmul a b ^^^ gmul a c := by
  simp only [gmul_eq_shiftAndAdd, shiftAndAdd_xor]

/-- Settles O34, law by law. -/
theorem gmulIsTheFieldProduct : Obligations.GmulIsTheFieldProduct := by
  refine ⟨fun a b => ⟨gmul_eq_shiftAndAdd a b, gmul_comm a b, gmul_one a, gmul_eq_zero_iff, ?_⟩,
    fun a b c => ⟨gmul_assoc a b c, gmul_xor a b c⟩⟩
  intro la lb ha hb
  exact gmul_of_logTable ha hb

end Sys2Proof.Claims
end

section
/-! The field arithmetic commands (R98 to R101): their words, their operands and their results. -/

namespace Sys2Proof.Claims

open Sys2Proof.Machine

/-! The words of the statements (R71, R75 to R77). -/

/-- The word of a format R command, by its number. -/
theorem toNat_formatR_xfields (op : BitVec 8) (a b c d : XReg) :
    (formatR op (xfield a) (xfield b) (xfield c) (xfield d)).toNat =
      wordR op.toNat a b c d := by
  simp only [toNat_formatR, toNat_xfield, wordR, Nat.reducePow]

/-- A well-formed command has the one word the encoder gives it (R76). -/
theorem wordOf_of_encode {i : Instr} {n : Nat} (hwf : i.wellFormed = true)
    (hn : (encode i).toNat = n) : WordOf i n := by
  intro w
  rw [decode_ok_iff, ← hn, ← BitVec.toNat_inj, eq_comm (a := w.toNat)]
  exact and_iff_right hwf

/-- A command whose effect is a fault raises it with its own word as `FCMD` (R163). -/
theorem raises_of_command {i : Instr} {n : Nat} {s : State} {c : Cause} {info : Nat}
    (hn : (encode i).toNat = n) (hs : s.faulted = false)
    (h : exec i s = command (encode i) s (.error ⟨c, info⟩)) : Raises i n s c info := by
  rw [Raises, h, command_error _ hs, ← hn, BitVec.ofNat_toNat, BitVec.setWidth_eq]

/-- The commands with two operand fields have 16 low bits that must be zero (R77 item 2). -/
theorem lowBitsZero_two_fields {op : Nat}
    (hop : op ∈ [0x02, 0x03, 0x10, 0x11, 0x21, 0x22, 0x26]) : LowBitsZero op 16 := by
  intro w hw hlow
  obtain ⟨hillegal, hraise⟩ := illegalWordsAreTheFiveItems w
  exact hraise (hillegal.2 (.inr (.inr (.inr (.inl ⟨hw ▸ hop, hlow⟩)))))

/-- The commands with three operand fields have 12 low bits that must be zero (R77 item 2). -/
theorem lowBitsZero_three_fields {op : Nat}
    (hop : op ∈ [0x12, 0x13, 0x23, 0x24, 0x25]) : LowBitsZero op 12 := by
  intro w hw hlow
  obtain ⟨hillegal, hraise⟩ := illegalWordsAreTheFiveItems w
  exact hraise (hillegal.2 (.inr (.inr (.inr (.inr (.inl ⟨hw ▸ hop, hlow⟩))))))

/-! Operands and results. -/

theorem fieldOperand_of_le {s : State} {i : XReg} (h : (s.getX i).toNat ≤ 255) :
    fieldOperand s i = .ok (BitVec.ofNat 8 (s.getX i).toNat) :=
  fieldOperand_ok_iff.2 ⟨h, BitVec.ofNat_toNat ..⟩

theorem zext8_eq_ofNat (v : Byte) : zext8 v = BitVec.ofNat 32 v.toNat :=
  (BitVec.ofNat_toNat ..).symm

/-- The two commands that combine two field elements by `f` check `x[b]` before `x[c]`
(R100, R101). -/
theorem exec_fieldBinary {i : Instr} {n : Nat} {a b c : XReg} {f : Byte → Byte → Byte} {s : State}
    (hexec : exec i s = command (encode i) s do
      let v1 ← fieldOperand s b
      let v2 ← fieldOperand s c
      .ok (s.setX a (zext8 (f v1 v2))))
    (hn : (encode i).toNat = n) (hs : s.faulted = false) :
    (255 < (s.getX b).toNat → Raises i n s .invalidArgument (s.getX b).toNat) ∧
    ((s.getX b).toNat ≤ 255 → 255 < (s.getX c).toNat →
      Raises i n s .invalidArgument (s.getX c).toNat) ∧
    ((s.getX b).toNat ≤ 255 → (s.getX c).toNat ≤ 255 →
      exec i s = .next (s.setX a (BitVec.ofNat 32
        (f (BitVec.ofNat 8 (s.getX b).toNat) (BitVec.ofNat 8 (s.getX c).toNat)).toNat))) := by
  refine ⟨fun hb => ?_, fun hb hc => ?_, fun hb hc => ?_⟩
  · rw [fieldOperand_error hb, error_bind] at hexec
    exact raises_of_command hn hs hexec
  · rw [fieldOperand_of_le hb, ok_bind, fieldOperand_error hc, error_bind] at hexec
    exact raises_of_command hn hs hexec
  · rw [hexec, fieldOperand_of_le hb, ok_bind, fieldOperand_of_le hc, ok_bind, command_ok _ hs,
      zext8_eq_ofNat]

/-- Bytes below 256 as numbers: their exclusive or is that of the numbers. -/
theorem toNat_gadd_ofNat {m n : Nat} (hm : m ≤ 255) (hn : n ≤ 255) :
    (gadd (BitVec.ofNat 8 m) (BitVec.ofNat 8 n)).toNat = m ^^^ n := by
  rw [gadd, BitVec.toNat_xor, BitVec.toNat_ofNat, BitVec.toNat_ofNat,
    Nat.mod_eq_of_lt (Nat.lt_succ_of_le hm), Nat.mod_eq_of_lt (Nat.lt_succ_of_le hn)]

/-! The four commands. -/

/-- Settles O35: the command has no check, and reads its index signed. -/
theorem gexpLooksUpSignedIndex : Obligations.GexpLooksUpSignedIndex := by
  refine ⟨lowBitsZero_two_fields (by decide), fun a b =>
    ⟨wordOf_of_encode rfl (toNat_formatR_xfields 0x10 a b 0 0), fun s hs => ?_⟩⟩
  rw [← zext8_eq_ofNat]
  exact command_ok (w := encode (.gexp a b)) _ hs

/-- Settles O36: above 255 the operand check raises, and of the bytes only 0 has no logarithm. -/
theorem glogLooksUpLogarithm : Obligations.GlogLooksUpLogarithm := by
  refine ⟨lowBitsZero_two_fields (by decide), fun a b => ?_⟩
  have hword : (encode (.glog a b)).toNat = wordR 0x11 a b 0 0 :=
    toNat_formatR_xfields 0x11 a b 0 0
  refine ⟨wordOf_of_encode rfl hword, fun s hs => ?_⟩
  have hexec : exec (.glog a b) s = command (encode (.glog a b)) s
      (fieldOperand s b >>= fun v => glog v >>= fun l => .ok (s.setX a (wordOfNat l))) := rfl
  refine ⟨fun hbig => ?_, fun hzero => ?_, fun hpos hle => ?_⟩
  · rw [fieldOperand_error hbig, error_bind] at hexec
    exact raises_of_command hword hs hexec
  · rw [fieldOperand_of_le (by omega), ok_bind, hzero, glog_zero, error_bind] at hexec
    exact raises_of_command hword hs hexec
  · have hne : BitVec.ofNat 8 (s.getX b).toNat ≠ 0#8 := fun h => by
      have hmod := congrArg BitVec.toNat h
      rw [BitVec.toNat_ofNat, BitVec.toNat_ofNat] at hmod
      omega
    obtain ⟨l, hl, hlog, -⟩ := exists_logTable hne
    refine ⟨l, by omega, hlog, ?_⟩
    rw [hexec, fieldOperand_of_le hle, ok_bind, glog_ok_iff.2 hlog, ok_bind, command_ok _ hs,
      wordOfNat]

/-- Settles O37, by the checks of the two operands. -/
theorem gaddIsExclusiveOr : Obligations.GaddIsExclusiveOr := by
  refine ⟨lowBitsZero_three_fields (by decide), fun a b c => ?_⟩
  have hword : (encode (.gadd a b c)).toNat = wordR 0x12 a b c 0 :=
    toNat_formatR_xfields 0x12 a b c 0
  refine ⟨wordOf_of_encode rfl hword, fun s hs => ?_⟩
  obtain ⟨hfirst, hsecond, hdone⟩ := exec_fieldBinary (f := gadd) rfl hword hs
  refine ⟨hfirst, hsecond, fun hb hc => ?_⟩
  rw [hdone hb hc, toNat_gadd_ofNat hb hc]

/-- Settles O38, by the checks of the two operands. -/
theorem gmulIsFieldProductOfOperands : Obligations.GmulIsFieldProductOfOperands := by
  refine ⟨lowBitsZero_three_fields (by decide), fun a b c => ?_⟩
  have hword : (encode (.gmul a b c)).toNat = wordR 0x13 a b c 0 :=
    toNat_formatR_xfields 0x13 a b c 0
  exact ⟨wordOf_of_encode rfl hword, fun s hs => exec_fieldBinary (f := gmul) rfl hword hs⟩

end Sys2Proof.Claims
end

section
/-! Coefficients of sums and products (41_polynomial.md): a sequence is determined by its length and
its coefficients, 0 past its end, on which a sum is an exclusive or and a product a recurrence. -/

namespace Sys2Proof.Machine

open Sys2Proof.Claims (gmul_comm)

/-- Coefficient `k` of a sequence, counted from its first, and 0 past its end. -/
def coeff (c : List Byte) (k : Nat) : Byte := c.getD k 0

@[simp] theorem coeff_nil (k : Nat) : coeff [] k = 0#8 := rfl

@[simp] theorem coeff_cons_zero (x : Byte) (c : List Byte) : coeff (x :: c) 0 = x := rfl

@[simp] theorem coeff_cons_succ (x : Byte) (c : List Byte) (k : Nat) :
    coeff (x :: c) (k + 1) = coeff c k := rfl

theorem coeff_of_length_le {c : List Byte} {k : Nat} (h : c.length ≤ k) : coeff c k = 0#8 :=
  List.getD_eq_default c _ h

theorem getElem?_eq_coeff {l : List Byte} {k : Nat} (h : k < l.length) :
    l[k]? = some (coeff l k) := by
  rw [coeff, List.getD_eq_getElem l _ h, List.getElem?_eq_getElem h]

/-- Sequences of one length with the same coefficients are equal. -/
theorem eq_of_coeff_eq {a b : List Byte} (hlen : a.length = b.length)
    (h : ∀ k, coeff a k = coeff b k) : a = b := by
  refine List.ext_getElem? fun k => ?_
  by_cases hk : k < a.length
  · rw [getElem?_eq_coeff hk, getElem?_eq_coeff (hlen ▸ hk), h]
  · rw [List.getElem?_eq_none (by omega), List.getElem?_eq_none (by omega)]

theorem coeff_map_gmul (x : Byte) (c : List Byte) (k : Nat) :
    coeff (c.map (gmul x)) k = gmul x (coeff c k) := by
  by_cases hk : k < c.length
  · simp [coeff, hk]
  · rw [coeff_of_length_le (by simpa using hk), coeff_of_length_le (by omega), gmul_zero_right]

theorem coeff_addAligned (a b : List Byte) (k : Nat) :
    coeff (addAligned a b) k = coeff a k ^^^ coeff b k := by
  induction a generalizing b k with
  | nil => simp [addAligned]
  | cons x a ih =>
    cases b with
    | nil => simp [addAligned]
    | cons y b =>
      cases k with
      | zero => rfl
      | succ k => exact ih b k

/-- Zeros in front move every coefficient back. -/
theorem coeff_zeros_append (n : Nat) (c : List Byte) (k : Nat) :
    coeff (List.replicate n 0#8 ++ c) k = if k < n then 0#8 else coeff c (k - n) := by
  induction n generalizing k with
  | zero => simp
  | succ n ih =>
    cases k with
    | zero => rfl
    | succ k =>
      rw [List.replicate_succ, List.cons_append, coeff_cons_succ, ih]
      simp

theorem coeff_zero_cons_nil (k : Nat) : coeff [0#8] k = 0#8 := by cases k <;> rfl

/-- A product by its first operand, row by row (R117). -/
theorem coeff_pmul_cons (x : Byte) (a b : Poly) (k : Nat) :
    coeff (pmul (x :: a) b) k = gmul x (coeff b k) ^^^ coeff (0#8 :: pmul a b) k := by
  cases a with
  | nil =>
    have hnil : pmul [] b = [] := rfl
    rw [hnil, coeff_zero_cons_nil, BitVec.xor_zero, pmul, coeff_map_gmul]
  | cons x' a =>
    rw [pmul, coeff_addAligned, coeff_map_gmul]
    · rfl
    · exact List.cons_ne_nil x' a

/-- A product by its second operand, column by column (R117). -/
theorem coeff_pmul_cons_right (a : Poly) (y : Byte) (b : Poly) (k : Nat) :
    coeff (pmul a (y :: b)) k = gmul y (coeff a k) ^^^ coeff (0#8 :: pmul a b) k := by
  induction a generalizing k with
  | nil => simp [pmul, coeff_zero_cons_nil]
  | cons x a ih =>
    rw [coeff_pmul_cons]
    cases k with
    | zero => simp [gmul_comm x y]
    | succ k =>
      simp only [coeff_cons_succ, ih, coeff_pmul_cons]
      ac_rfl

theorem coeff_pmul_nil (a : Poly) (k : Nat) : coeff (pmul a []) k = 0#8 := by
  induction a generalizing k with
  | nil => rfl
  | cons x a ih =>
    rw [coeff_pmul_cons]
    cases k with
    | zero => simp
    | succ k => simp [ih]

theorem coeff_pmul_comm (a b : Poly) (k : Nat) : coeff (pmul a b) k = coeff (pmul b a) k := by
  induction a generalizing k with
  | nil => exact (coeff_pmul_nil b k).symm
  | cons x a ih =>
    rw [coeff_pmul_cons, coeff_pmul_cons_right]
    cases k with
    | zero => rfl
    | succ k => rw [coeff_cons_succ, coeff_cons_succ, ih]

theorem pmul_comm {a b : Poly} (ha : a ≠ []) (hb : b ≠ []) : pmul a b = pmul b a :=
  eq_of_coeff_eq (by rw [pmul_length ha hb, pmul_length hb ha, Nat.add_comm]) (coeff_pmul_comm a b)

end Sys2Proof.Machine

namespace Sys2Proof.Claims

open Sys2Proof.Machine

/-! The convolution of the statement obeys the recurrence of the product. -/

theorem foldl_xor_append (l m : List Byte) :
    (l ++ m).foldl (· ^^^ ·) (0 : Byte) = l.foldl (· ^^^ ·) 0 ^^^ m.foldl (· ^^^ ·) 0 := by
  have assoc : Std.Associative fun x y : Byte => x ^^^ y := ⟨BitVec.xor_assoc⟩
  rw [List.foldl_append, ← List.foldl_assoc (op := fun x y : Byte => x ^^^ y),
    BitVec.ofNat_eq_ofNat, BitVec.xor_zero]

/-- Of the indices below `n`, `k` alone contributes at `k`. -/
theorem filterMap_range_eq (n k : Nat) (f : Nat → Byte) :
    ((List.range n).filterMap fun j => if j = k then some (f j) else none) =
      if k < n then [f k] else [] := by
  induction n with
  | zero => rfl
  | succ n ih =>
    rw [List.range_succ, List.filterMap_append, ih]
    obtain h | rfl | h := Nat.lt_trichotomy n k
    · simp [h.ne, Nat.not_lt.2 h.le, Nat.not_lt.2 h]
    · simp
    · simp [h.ne', h, Nat.lt_succ_of_lt h]

/-- The first row contributes its coefficient times coefficient `k` of `b`; the others come one
place later. -/
theorem convolution_cons (x : Byte) (a b : Poly) (k : Nat) :
    convolution (x :: a) b k = gmul x (coeff b k) ^^^
      if k = 0 then 0#8 else convolution a b (k - 1) := by
  have first : (((List.range b.length).filterMap fun j =>
      if 0 + j = k then some (gmul x (b.getD j 0)) else none).foldl (· ^^^ ·) 0) =
        gmul x (coeff b k) := by
    simp only [Nat.zero_add, filterMap_range_eq]
    split
    · exact BitVec.zero_xor
    · rw [coeff_of_length_le (by omega), gmul_zero_right]
      rfl
  rw [convolution, List.length_cons, List.range_succ_eq_map, List.flatMap_cons, foldl_xor_append,
    List.flatMap_map]
  congr 1
  cases k with
  | zero =>
    have hnone : (List.range a.length).flatMap (fun _ => ([] : List Byte)) = [] :=
      List.flatMap_eq_nil_iff.2 fun _ _ => rfl
    simp [hnone]
  | succ k => simp [convolution, Nat.add_right_comm]

theorem coeff_pmul (a b : Poly) (k : Nat) : coeff (pmul a b) k = convolution a b k := by
  induction a generalizing k with
  | nil => rfl
  | cons x a ih =>
    rw [coeff_pmul_cons, convolution_cons]
    cases k with
    | zero => rfl
    | succ k => rw [coeff_cons_succ, ih]; rfl

/-- Settles O40, from the length, the coefficients and the leading coefficient of a product. -/
theorem pmulIsConvolution : Obligations.PmulIsConvolution := by
  intro a b ha hb
  have hlen := pmul_length ha hb
  refine ⟨hlen, fun k hk => ?_, fun hx hy => ⟨?_, gmul_ne_zero hx hy⟩, fun hzero => ?_,
    pmul_comm ha hb⟩
  · rw [getElem?_eq_coeff (hlen.symm ▸ hk), coeff_pmul]
  · obtain ⟨x, a, rfl⟩ := List.exists_cons_of_ne_nil ha
    obtain ⟨y, b, rfl⟩ := List.exists_cons_of_ne_nil hb
    exact pmul_head x y a b
  · refine List.eq_replicate_iff.2 ⟨hlen, pmul_zeros fun x hx y hy => gmul_eq_zero_iff.2 ?_⟩
    exact hzero.imp (fun h => h x hx) (fun h => h y hy)

end Sys2Proof.Claims
end

section
/-! Construction (R111) and the generator polynomial (R121). -/

namespace Sys2Proof.Machine

/-- Trimming drops the coefficients before the first nonzero one, which are zeros (R111). -/
theorem exists_trim_eq_drop (c : List Byte) :
    ∃ off ≤ c.length, (∀ k < off, coeff c k = 0#8) ∧ (off < c.length → coeff c off ≠ 0#8) ∧
      trim c = c.drop off := by
  induction c with
  | nil => exact ⟨0, le_rfl, by simp, by simp, rfl⟩
  | cons b c ih =>
    by_cases hb : b = 0#8
    · obtain ⟨off, hle, hzero, hne, htrim⟩ := ih
      subst hb
      refine ⟨off + 1, Nat.succ_le_succ hle, fun k hk => ?_,
        fun h => hne (Nat.lt_of_succ_lt_succ h), by rw [trim_zero_cons, htrim, List.drop_succ_cons]⟩
      cases k with
      | zero => rfl
      | succ k => exact hzero k (Nat.lt_of_succ_lt_succ hk)
    · exact ⟨0, Nat.zero_le _, by simp, fun _ => hb, trim_cons_of_ne c hb⟩

/-- What trimming drops is zeros. -/
theorem zeros_append_trim (c : List Byte) :
    List.replicate (c.length - (trim c).length) 0#8 ++ trim c = c := by
  induction c with
  | nil => rfl
  | cons b c ih =>
    by_cases hb : b = 0#8
    · subst hb
      rw [trim_zero_cons, List.length_cons, Nat.succ_sub (trim_length_le c), List.replicate_succ,
        List.cons_append, ih]
    · rw [trim_cons_of_ne c hb, Nat.sub_self]
      rfl

/-! The generator polynomial. -/

theorem addAligned_getLast? {a b : List Byte} (h : a.length < b.length) :
    (addAligned a b).getLast? = b.getLast? := by
  induction a generalizing b with
  | nil => rw [addAligned]
  | cons x a ih =>
    cases b with
    | nil => exact absurd h (Nat.not_lt_zero _)
    | cons y b =>
      have hlen : a.length < b.length := Nat.lt_of_succ_lt_succ h
      have hb : b ≠ [] := List.ne_nil_of_length_pos (by omega)
      have hsum : addAligned a b ≠ [] :=
        List.ne_nil_of_length_pos (by rw [addAligned_length]; omega)
      rw [addAligned, List.getLast?_cons_of_ne_nil hsum, ih hlen, List.getLast?_cons_of_ne_nil hb]

/-- The last coefficient of a product is the product of the last coefficients. -/
theorem pmul_getLast? {a b : Poly} {x y : Byte} (ha : a.getLast? = some x)
    (hb : b.getLast? = some y) : (pmul a b).getLast? = some (gmul x y) := by
  have hbne : b ≠ [] := by rintro rfl; cases hb
  induction a with
  | nil => cases ha
  | cons z a ih =>
    cases a with
    | nil =>
      obtain rfl : z = x := Option.some.inj ha
      rw [pmul, List.getLast?_map, hb]
      rfl
    | cons z' a =>
      have hlen := pmul_length (List.cons_ne_nil z' a) hbne
      have hbpos := List.length_pos_iff.2 hbne
      rw [List.length_cons] at hlen
      have hne : pmul (z' :: a) b ≠ [] := List.ne_nil_of_length_pos (by omega)
      rw [List.getLast?_cons_of_ne_nil (List.cons_ne_nil z' a)] at ha
      have hlast := addAligned_getLast? (a := b.map (gmul z)) (b := 0 :: pmul (z' :: a) b)
        (by rw [List.length_map, List.length_cons]; omega)
      rw [pmul, hlast, List.getLast?_cons_of_ne_nil hne, ih ha]
      exact List.cons_ne_nil z' a

theorem gmul_gexp (i j : Nat) : gmul (gexp i) (gexp j) = gexp (i + j : Nat) := by
  have log (n : Nat) : logTable (gexp n) = some (n % 255) := by
    rw [← Int.toNat_natCast (n % 255), Int.natCast_mod]
    exact logTable_expTable (residue_lt n)
  have hexp : gexp (i + j : Nat) = expTable ((i + j) % 255) := by
    rw [← Int.toNat_natCast ((i + j) % 255), Int.natCast_mod]
    rfl
  rw [Claims.gmul_of_logTable (log i) (log j), hexp, Nat.mod_add_mod, Nat.add_mod_mod]

/-- The constant term of the generator is `α` to the sum of the exponents (R121). -/
theorem pgen_getLast? (n : Nat) :
    (pgen n).getLast? = some (gexp (n * (n - 1) / 2 : Nat)) := by
  induction n with
  | zero => rfl
  | succ n ih =>
    have hfactor : [0x01, gexp n].getLast? = some (gexp n) := rfl
    rw [pgen, pmul_getLast? ih hfactor, gmul_gexp, Nat.triangle_succ]

end Sys2Proof.Machine

namespace Sys2Proof.Claims

open Sys2Proof.Machine

/-- Settles O39, from what the trim drops. -/
theorem constructTrimsAndShifts : Obligations.ConstructTrimsAndShifts := by
  intro c shift
  obtain ⟨off, hle, hzero, hne, htrim⟩ := exists_trim_eq_drop c
  refine ⟨off, hle, hzero, hne, by rw [construct, htrim], ?_⟩
  rw [construct, htrim, List.length_append, List.length_drop, List.length_replicate]

/-- Settles O43, by the leading and the last coefficient of a product. -/
theorem pgenIsTheMonicProduct : Obligations.PgenIsTheMonicProduct :=
  ⟨rfl, fun ec => ⟨rfl, pgen_length ec, pgen_head ec, pgen_getLast? ec⟩⟩

end Sys2Proof.Claims
end

section
/-! The division (R119): what one pass does, the loop by the passes it makes, and its quotient. -/

namespace Sys2Proof.Machine

/-! One pass. -/

/-- `new` of a pass, as the statement writes it. -/
theorem passResult_eq_subScaled (cur div : Poly) (q : Byte) :
    Claims.passResult cur div q = subScaled cur div q := by
  induction cur generalizing div with
  | nil => rfl
  | cons c cur ih =>
    have hrest := ih div.tail
    rw [Claims.passResult] at hrest ⊢
    rw [List.length_cons, List.range_succ_eq_map, List.map_cons, List.map_map]
    cases div with
    | nil =>
      have hkeep : subScaled cur [] q = cur := by cases cur <;> rfl
      rw [List.tail_nil, hkeep] at hrest
      exact congrArg (c :: ·) hrest
    | cons d div => simpa [subScaled, gadd, Function.comp_def] using hrest

theorem coeff_subScaled (cur div : Poly) (q : Byte) (k : Nat) (h : div.length ≤ cur.length) :
    coeff (subScaled cur div q) k = coeff cur k ^^^ gmul (coeff div k) q := by
  induction cur generalizing div k with
  | nil =>
    obtain rfl := List.length_eq_zero_iff.1 (Nat.le_zero.1 h)
    simp [subScaled]
  | cons c cur ih =>
    cases div with
    | nil => simp [subScaled]
    | cons d div =>
      cases k with
      | zero => rfl
      | succ k => exact ih div k (Nat.le_of_succ_le_succ h)

/-- The divisor scaled by the quotient of the leading coefficients leads as the dividend does. -/
theorem gmul_gexp_ratio {c d : Byte} {lc ld : Nat} (hc : logTable c = some lc)
    (hd : logTable d = some ld) : gmul d (gexp (ratio lc ld)) = c := by
  obtain ⟨hlt, rfl⟩ := expTable_of_logTable hc
  have hq : logTable (gexp (ratio lc ld)) = some (ratio lc ld % 255).toNat :=
    logTable_expTable (residue_lt _)
  rw [Claims.gmul_of_logTable hd hq]
  congr 1
  simp only [ratio, Config.expModulus]
  omega

/-- A pass of the loop is due and reads the logarithms `lc` and `ld` of the leading coefficients. -/
structure PassDue (cur div : Poly) (lc ld : Nat) : Prop where
  due : div.length ≤ cur.length
  logCur : logTable (coeff cur 0) = some lc
  logDiv : logTable (coeff div 0) = some ld

/-- The dividend of the next pass. -/
def passNext (cur div : Poly) (lc ld : Nat) : Poly := trim (subScaled cur div (gexp (ratio lc ld)))

/-- Every pass of the loop returns, faults, or goes on. -/
theorem pass_cases (cur div : Poly) :
    cur.length < div.length ∨
      (div.length ≤ cur.length ∧ (coeff cur 0 = 0#8 ∨ coeff div 0 = 0#8)) ∨
      ∃ lc ld, PassDue cur div lc ld := by
  obtain h | h := Nat.lt_or_ge cur.length div.length
  · exact .inl h
  by_cases hz : coeff cur 0 = 0#8 ∨ coeff div 0 = 0#8
  · exact .inr (.inl ⟨h, hz⟩)
  rw [not_or] at hz
  obtain ⟨lc, -, hlc, -⟩ := exists_logTable hz.1
  obtain ⟨ld, -, hld, -⟩ := exists_logTable hz.2
  exact .inr (.inr ⟨lc, ld, h, hlc, hld⟩)

section
variable {cur div : Poly} {lc ld : Nat}

/-- A pass cancels the leading coefficient, so it shortens the dividend. -/
theorem passNext_length_lt (h : PassDue cur div lc ld) :
    (passNext cur div lc ld).length < cur.length := by
  obtain ⟨-, hc, hd⟩ := h
  cases cur with
  | nil => simp at hc
  | cons c cur =>
    cases div with
    | nil => simp at hd
    | cons d div =>
      rw [coeff_cons_zero] at hc hd
      rw [passNext, subScaled, gmul_gexp_ratio hc hd, gadd_self, trim_zero_cons]
      have hle := trim_length_le (subScaled cur div (gexp (ratio lc ld)))
      rw [subScaled_length] at hle
      exact Nat.lt_succ_of_le hle

/-- A pass takes a multiple of the divisor away, aligned at the leading coefficients. -/
theorem coeff_of_passDue (h : PassDue cur div lc ld) (k : Nat) :
    coeff cur k = gmul (gexp (ratio lc ld)) (coeff div k) ^^^
      coeff (List.replicate (cur.length - (passNext cur div lc ld).length) 0#8 ++
        passNext cur div lc ld) k := by
  have hnew := zeros_append_trim (subScaled cur div (gexp (ratio lc ld)))
  rw [subScaled_length] at hnew
  rw [passNext, hnew, coeff_subScaled _ _ _ _ h.due, Claims.gmul_comm, BitVec.xor_comm,
    BitVec.xor_assoc, BitVec.xor_self, BitVec.xor_zero]

/-! The loop, by the three cases of a pass. -/

theorem pmodLoop_short (f : Nat) (h : cur.length < div.length) :
    pmodLoop (f + 1) cur div = .ok cur := if_pos h

theorem pmodLoop_zero_lead (f : Nat) (h : div.length ≤ cur.length)
    (hz : coeff cur 0 = 0#8 ∨ coeff div 0 = 0#8) :
    pmodLoop (f + 1) cur div = .error ⟨.logOfZero, 0⟩ := by
  rw [pmodLoop, if_neg (Nat.not_lt.2 h)]
  change (glog (coeff cur 0) >>= fun lc => glog (coeff div 0) >>= _) = _
  by_cases hc : coeff cur 0 = 0#8
  · rw [hc, glog_zero, error_bind]
  · obtain ⟨lc, -, hlc, -⟩ := exists_logTable hc
    rw [glog_ok_iff.2 hlc, ok_bind, hz.resolve_left hc, glog_zero, error_bind]

theorem pmodLoop_pass (f : Nat) (h : PassDue cur div lc ld) :
    pmodLoop (f + 1) cur div = pmodLoop f (passNext cur div lc ld) div := by
  have hc : glog (cur.getD 0 0) = .ok lc := glog_ok_iff.2 h.logCur
  have hd : glog (div.getD 0 0) = .ok ld := glog_ok_iff.2 h.logDiv
  rw [pmodLoop, if_neg (Nat.not_lt.2 h.due), hc, ok_bind, hd, ok_bind, construct_zero_shift,
    passNext]

/-- More passes than the dividend has coefficients are never used up (log 12). -/
theorem pmodLoop_eq_of_lt {f g : Nat} (hf : cur.length < f) (hg : cur.length < g) :
    pmodLoop f cur div = pmodLoop g cur div := by
  induction f generalizing cur g with
  | zero => exact absurd hf (Nat.not_lt_zero _)
  | succ f ih =>
    cases g with
    | zero => exact absurd hg (Nat.not_lt_zero _)
    | succ g =>
      obtain h | ⟨h, hz⟩ | ⟨lc, ld, h⟩ := pass_cases cur div
      · rw [pmodLoop_short f h, pmodLoop_short g h]
      · rw [pmodLoop_zero_lead f h hz, pmodLoop_zero_lead g h hz]
      · have hlt := passNext_length_lt h
        rw [pmodLoop_pass f h, pmodLoop_pass g h]
        exact ih (by omega) (by omega)

/-! The remainder, by the same cases. -/

theorem pmod_nil (cur : Poly) : pmod cur [] = .error ⟨.indexRange, 0⟩ := rfl

theorem pmod_of_ne_nil (h : div ≠ []) : pmod cur div = pmodLoop (cur.length + 1) cur div :=
  if_neg (mt List.length_eq_zero_iff.1 h)

theorem pmod_short (h : cur.length < div.length) : pmod cur div = .ok cur := by
  rw [pmod_of_ne_nil (List.ne_nil_of_length_pos (by omega)), pmodLoop_short _ h]

theorem pmod_zero_lead (hdiv : div ≠ []) (h : div.length ≤ cur.length)
    (hz : coeff cur 0 = 0#8 ∨ coeff div 0 = 0#8) : pmod cur div = .error ⟨.logOfZero, 0⟩ := by
  rw [pmod_of_ne_nil hdiv, pmodLoop_zero_lead _ h hz]

theorem pmod_pass (h : PassDue cur div lc ld) :
    pmod cur div = pmod (passNext cur div lc ld) div := by
  have hdiv : div ≠ [] := by
    rintro rfl
    simpa using h.logDiv
  rw [pmod_of_ne_nil hdiv, pmod_of_ne_nil hdiv, pmodLoop_pass _ h]
  exact pmodLoop_eq_of_lt (passNext_length_lt h) (Nat.lt_succ_self _)

/-- What holds of the remainder, which is shorter than the divisor, and is carried back over every
pass, holds of the dividend. -/
theorem pmod_ok_induction {m : Poly} {P : Poly → Prop} (short : m.length < div.length → P m)
    (pass : ∀ cur lc ld, PassDue cur div lc ld → P (passNext cur div lc ld) → P cur)
    (h : pmod cur div = .ok m) : P cur := by
  induction hn : cur.length using Nat.strong_induction_on generalizing cur with
  | _ n ih =>
    obtain hlt | ⟨hle, hz⟩ | ⟨lc, ld, hp⟩ := pass_cases cur div
    · rw [pmod_short hlt] at h
      cases h
      exact short hlt
    · cases div with
      | nil => cases h
      | cons d div => rw [pmod_zero_lead (List.cons_ne_nil d div) hle hz] at h; cases h
    · rw [pmod_pass hp] at h
      exact pass cur lc ld hp (ih _ (hn ▸ passNext_length_lt hp) h rfl)

theorem pmod_length_lt {m : Poly} (h : pmod cur div = .ok m) : m.length < div.length :=
  pmod_ok_induction (P := fun _ => m.length < div.length) id (fun _ _ _ _ => id) h

/-- Every pass trims, so only a dividend with a leading zero can leave one (R119). -/
theorem pmod_head {m : Poly} (h : pmod cur div = .ok m) (hcur : cur.head? ≠ some 0#8) :
    m.head? ≠ some 0#8 :=
  pmod_ok_induction (P := fun c => c.head? ≠ some 0#8 → m.head? ≠ some 0#8) (fun _ => id)
    (fun _ _ _ _ ih _ => ih (trim_head _)) h hcur

/-- With nonzero leading coefficients no pass faults. -/
theorem exists_pmod_ok (hcur : cur.head? ≠ some 0#8) (hdiv : coeff div 0 ≠ 0#8) :
    ∃ m, pmod cur div = .ok m := by
  induction hn : cur.length using Nat.strong_induction_on generalizing cur with
  | _ n ih =>
    obtain hlt | ⟨hle, hz⟩ | ⟨lc, ld, hp⟩ := pass_cases cur div
    · exact ⟨cur, pmod_short hlt⟩
    · exfalso
      cases cur with
      | nil =>
        obtain rfl := List.length_eq_zero_iff.1 (Nat.le_zero.1 hle)
        exact hdiv rfl
      | cons c cur => exact hz.elim (fun hc => hcur (congrArg some hc)) hdiv
    · rw [pmod_pass hp]
      exact ih _ (hn ▸ passNext_length_lt hp) (trim_head _) rfl

/-! The quotient. -/

/-- Leading zeros of an operand are leading zeros of the product. -/
theorem coeff_pmul_zeros_append (n : Nat) (q b : Poly) (k : Nat) :
    coeff (pmul (List.replicate n 0#8 ++ q) b) k = coeff (List.replicate n 0#8 ++ pmul q b) k := by
  induction n generalizing k with
  | zero => rfl
  | succ n ih =>
    rw [List.replicate_succ, List.cons_append, List.cons_append, coeff_pmul_cons]
    cases k with
    | zero => simp
    | succ k => simp [ih]

theorem coeff_zero_cons_pmul (n : Nat) (q b : Poly) (k : Nat) :
    coeff (0#8 :: pmul (List.replicate n 0#8 ++ q) b) k =
      coeff (List.replicate (n + 1) 0#8 ++ pmul q b) k := by
  cases k with
  | zero => rfl
  | succ k => exact coeff_pmul_zeros_append n q b k

/-- Leading zeros in front of all three keep a sum a sum. -/
theorem coeff_zeros_append_xor {a b c : List Byte} (h : ∀ k, coeff a k = coeff b k ^^^ coeff c k)
    (n k : Nat) : coeff (List.replicate n 0#8 ++ a) k =
      coeff (List.replicate n 0#8 ++ b) k ^^^ coeff (List.replicate n 0#8 ++ c) k := by
  simp only [coeff_zeros_append]
  split
  · rfl
  · exact h _

/-- `q` is a quotient of `cur` by `div` that leaves `m`, aligned at the low-degree end: of a degree
lower by the divisor's, and empty if there is none. -/
structure IsQuotient (cur div m q : Poly) : Prop where
  remainder_le : m.length ≤ cur.length
  length_eq : q.length = cur.length + 1 - div.length
  coeff_eq : ∀ k, coeff cur k =
    coeff (pmul q div) k ^^^ coeff (List.replicate (cur.length - m.length) 0#8 ++ m) k

theorem isQuotient_nil {m : Poly} (h : m.length < div.length) : IsQuotient m div m [] where
  remainder_le := le_rfl
  length_eq := by rw [List.length_nil]; omega
  coeff_eq k := by rw [Nat.sub_self, pmul]; exact BitVec.zero_xor.symm

/-- A pass puts a coefficient in front of the quotient, with zeros for the degrees it skips. -/
theorem isQuotient_pass {m q : Poly} (h : PassDue cur div lc ld)
    (hq : IsQuotient (passNext cur div lc ld) div m q) :
    IsQuotient cur div m (gexp (ratio lc ld) ::
      (List.replicate (cur.length - div.length - q.length) 0#8 ++ q)) := by
  obtain ⟨hle, hlen, hcoeff⟩ := hq
  have hlt := passNext_length_lt h
  have hdue := h.due
  refine ⟨by omega, ?_, fun k => ?_⟩
  · simp only [List.length_cons, List.length_append, List.length_replicate]
    omega
  rw [coeff_of_passDue h, coeff_pmul_cons, BitVec.xor_assoc]
  congr 1
  have hproduct : coeff (0#8 :: pmul (List.replicate (cur.length - div.length - q.length) 0#8 ++ q)
      div) k = coeff (List.replicate (cur.length - (passNext cur div lc ld).length) 0#8 ++
        pmul q div) k := by
    rw [coeff_zero_cons_pmul]
    cases q with
    | nil =>
      rw [pmul, coeff_zeros_append, coeff_zeros_append]
      simp
    | cons x q =>
      rw [List.length_cons] at hlen ⊢
      congr 3
      omega
  have hremainder : List.replicate (cur.length - m.length) 0#8 ++ m =
      List.replicate (cur.length - (passNext cur div lc ld).length) 0#8 ++
        (List.replicate ((passNext cur div lc ld).length - m.length) 0#8 ++ m) := by
    rw [← List.append_assoc, List.replicate_append_replicate]
    congr 2
    omega
  rw [hproduct, hremainder]
  exact coeff_zeros_append_xor hcoeff _ k

theorem exists_isQuotient {m : Poly} (h : pmod cur div = .ok m) : ∃ q, IsQuotient cur div m q :=
  pmod_ok_induction (P := fun c => ∃ q, IsQuotient c div m q)
    (fun hlt => ⟨[], isQuotient_nil hlt⟩)
    (fun _ _ _ hp ⟨_, hq⟩ => ⟨_, isQuotient_pass hp hq⟩) h

/-- With a pass due, dividend, quotient and remainder are aligned at index 0 (R119). -/
theorem IsQuotient.eq_addAligned {m q : Poly} (hq : IsQuotient cur div m q)
    (hlt : m.length < div.length) (hdue : div.length ≤ cur.length) :
    cur = addAligned (pmul q div) (List.replicate (cur.length - m.length) 0#8 ++ m) := by
  obtain ⟨hle, hlen, hcoeff⟩ := hq
  have hqne : q ≠ [] := List.ne_nil_of_length_pos (by omega)
  have hdne : div ≠ [] := List.ne_nil_of_length_pos (by omega)
  refine eq_of_coeff_eq ?_ fun k => (hcoeff k).trans (coeff_addAligned _ _ k).symm
  rw [addAligned_length, pmul_length hqne hdne, List.length_append, List.length_replicate]
  omega

end

/-- A dividend with a coefficient starts with it. -/
theorem head?_ne_zero {c : Poly} (h : coeff c 0 ≠ 0#8) : c.head? ≠ some 0#8 := by
  cases c with
  | nil => simp
  | cons x c => exact fun hx => h (Option.some.inj hx)

end Sys2Proof.Machine

namespace Sys2Proof.Claims

open Sys2Proof.Machine

/-- Settles O41, by the cases of a pass. -/
theorem pmodRunsPassByPass : Obligations.PmodRunsPassByPass := by
  intro cur div
  refine ⟨?_, fun _ h => pmod_short h, fun hne h hz => pmod_zero_lead hne h hz,
    fun _ h lc ld hc hd => ?_⟩
  · rintro rfl
    exact pmod_nil cur
  · have hp : PassDue cur div lc ld := ⟨h, hc, hd⟩
    have hq : expTable (((lc : Int) - (ld : Int)) % 255).toNat = gexp (ratio lc ld) :=
      (congrArg (fun i : Int => expTable i.toNat) (Int.emod_emod_of_dvd _ (dvd_refl 255))).symm
    simp only [hq, passResult_eq_subScaled, construct_zero_shift]
    exact ⟨pmod_pass hp, passNext_length_lt hp⟩

/-- Settles O42: with a pass due the dividend does not start with a zero, or the pass would
fault. -/
theorem pmodIsTheDivisionRemainder : Obligations.PmodIsTheDivisionRemainder := by
  intro cur div m _ h
  have hlt := pmod_length_lt h
  refine ⟨hlt, fun hdue => ⟨pmod_head h (head?_ne_zero fun hzero => ?_), ?_⟩⟩
  · have hne : div ≠ [] := List.ne_nil_of_length_pos (by omega)
    rw [pmod_zero_lead hne hdue (.inl hzero)] at h
    cases h
  · obtain ⟨q, hq⟩ := exists_isQuotient h
    exact ⟨q, by rw [hq.length_eq]; omega, hq.eq_addAligned hlt hdue⟩

end Sys2Proof.Claims
end

section
/-! The polynomial commands (R113 to R116, R118, R120, R122): their words, their frame, their
checks and their results. -/

namespace Sys2Proof.Machine

/-! Frames: what a discarded, a faulting and a completed command leaves unchanged. -/

section
variable (s : State) (xs : XReg → Prop) (ps : PReg → Prop) (cs : Csr → Prop)
  (ms : Nat → Prop)

theorem changesOnly_refl : ChangesOnly s s xs ps cs ms :=
  ⟨fun _ _ => rfl, fun _ _ => rfl, fun _ _ _ => rfl, fun _ _ _ => rfl, fun _ _ => rfl, rfl, rfl,
    rfl⟩

/-- Fault entry changes the four fault registers alone, and sets `FAULT` (R163). -/
theorem enterFault_changesOnly (hs : s.faulted = false) (r : Trap) (w : Word) :
    ChangesOnly s (s.enterFault r w) xs ps cs ms where
  x _ _ := rfl
  p _ _ := rfl
  rw _ hc _ := State.enterFault_getCsr s r w hc
  fault h := absurd ⟨hs, State.enterFault_faulted s r w⟩ h
  mem _ _ := rfl
  params := rfl
  epoch := rfl
  inbox := rfl

/-- A command changes no more than it does when it completes. -/
theorem exec_changesOnly {s t : State} {xs : XReg → Prop} {ps : PReg → Prop} {cs : Csr → Prop}
    {ms : Nat → Prop} {i : Instr} (h : exec i s = .next t)
    (hdone : Done i s t → ChangesOnly s t xs ps cs ms) : ChangesOnly s t xs ps cs ms := by
  obtain ⟨-, rfl⟩ | ⟨hs, ⟨r, rfl⟩ | h⟩ := exec_cases h
  · exact changesOnly_refl ..
  · exact enterFault_changesOnly _ _ _ _ _ hs r _
  · exact hdone h

/-- A write of a polynomial register changes that register alone. -/
theorem setP_changesOnly (k : PReg) (c : Poly) :
    ChangesOnly s (s.setP k c) Claims.nothing (· = k) Claims.nothing Claims.nothing where
  x _ _ := rfl
  p _ hl := State.getP_setP_other s k _ c hl
  rw q _ _ := State.setP_getCsr s k c q
  fault _ q _ := State.setP_getCsr s k c q
  mem _ _ := rfl
  params := rfl
  epoch := rfl
  inbox := rfl

end

/-- The statements write `u(x[i])` out (R12, R21). -/
theorem State.toNat_getX (s : State) (i : XReg) : (s.getX i).toNat = s.unsignedX i := rfl

theorem rangeCheck_ok {s : State} {addr n : Nat} (h : Claims.InRange s addr n) :
    rangeCheck s addr n = .ok () := rangeCheck_ok_iff.2 h

theorem rangeCheck_error_of_not_inRange {s : State} {addr n : Nat}
    (h : ¬ Claims.InRange s addr n) : rangeCheck s addr n = .error ⟨.memRange, addr⟩ := by
  rw [Claims.InRange, not_or] at h
  exact rangeCheck_error (by omega) (by omega)

end Sys2Proof.Machine

namespace Sys2Proof.Claims

open Sys2Proof.Machine

/-- Settles O23: each of the four commands, when it completes, has written `p[a]`. -/
theorem polynomialCommandsChangeOnlyTheirDestination :
    Obligations.PolynomialCommandsChangeOnlyTheirDestination := by
  intro s t a k l b c d
  refine ⟨fun h => exec_changesOnly h ?_, fun h => exec_changesOnly h ?_,
    fun h => exec_changesOnly h ?_, fun h => exec_changesOnly h ?_⟩
  · rintro ⟨-, -, rfl⟩
    exact setP_changesOnly s a _
  · rintro ⟨-, -, rfl⟩
    exact setP_changesOnly s a _
  · rintro ⟨m, -, rfl⟩
    exact setP_changesOnly s a m
  · rintro ⟨-, rfl⟩
    exact setP_changesOnly s a _

/-! The words of the polynomial commands (R71, R73, R77). -/

/-- The word of a format R command, by its number. -/
theorem toNat_formatR_fields (op : BitVec 8) (a b c d : BitVec 4) :
    (formatR op a b c d).toNat = wordR op.toNat a.toNat b.toNat c.toNat d.toNat := by
  simp only [toNat_formatR, wordR, Nat.reducePow]

theorem lowBitsZero_pld : LowBitsZero 0x20 8 := by
  intro w hw hlow
  obtain ⟨hillegal, hraise⟩ := illegalWordsAreTheFiveItems w
  exact hraise (hillegal.2 (.inr (.inr (.inr (.inr (.inr (.inl ⟨by simp [hw], hlow⟩)))))))

/-- The commands whose field `a` is a polynomial register (R77 item 4). -/
theorem polyField_a {op : Nat} (hop : op ∈ [0x20, 0x21, 0x24, 0x25, 0x26]) : PolyField op 20 := by
  intro w hw hfield
  obtain ⟨hillegal, hraise⟩ := illegalWordsAreTheFiveItems w
  exact hraise (hillegal.2 (.inr (.inr (.inr (.inr (.inr (.inr (.inr (.inl
    ⟨hw ▸ hop, hfield⟩)))))))))

/-- The commands whose field `b` is a polynomial register (R77 item 4). -/
theorem polyField_b {op : Nat} (hop : op ∈ [0x22, 0x23, 0x24, 0x25]) : PolyField op 16 := by
  intro w hw hfield
  obtain ⟨hillegal, hraise⟩ := illegalWordsAreTheFiveItems w
  exact hraise (hillegal.2 (.inr (.inr (.inr (.inr (.inr (.inr (.inr (.inr (.inl
    ⟨hw ▸ hop, hfield⟩))))))))))

/-- The commands whose field `c` is a polynomial register (R77 item 4). -/
theorem polyField_c {op : Nat} (hop : op ∈ [0x24, 0x25]) : PolyField op 12 := by
  intro w hw hfield
  obtain ⟨hillegal, hraise⟩ := illegalWordsAreTheFiveItems w
  exact hraise (hillegal.2 (.inr (.inr (.inr (.inr (.inr (.inr (.inr (.inr (.inr (.inl
    ⟨hw ▸ hop, hfield⟩)))))))))))

/-! The commands. -/

/-- Settles O44: the range check, then the check of the length `construct` gives. -/
theorem pldConstructsFromMemory : Obligations.PldConstructsFromMemory := by
  refine ⟨lowBitsZero_pld, polyField_a (by decide), fun a b c d => ?_⟩
  have hword : (encode (.pld a b c d)).toNat = wordR 0x20 a b c d := by
    simp [encode, toNat_formatR_fields]
  refine ⟨wordOf_of_encode rfl hword, fun s hs => ?_⟩
  simp only [construct_length, State.toNat_getX]
  refine ⟨fun hout => ?_, fun hin hlong => ?_, fun hin hfits => ?_⟩
  · exact raises_of_command hword hs (by
      simp only [exec, execPld, rangeCheck_error_of_not_inRange hout, error_bind])
  · exact raises_of_command hword hs (by
      simp only [exec, execPld, rangeCheck_ok hin, ok_bind, raiseIf_pos _ hlong, error_bind])
  · simp only [exec, execPld, rangeCheck_ok hin, ok_bind, raiseIf_neg _ (Nat.not_lt.2 hfits),
      command_ok _ hs]

/-- Settles O45, by the range check. -/
theorem pstStoresCoefficients : Obligations.PstStoresCoefficients := by
  refine ⟨lowBitsZero_two_fields (by decide), polyField_a (by decide), fun a b => ?_⟩
  have hword : (encode (.pst a b)).toNat = wordR 0x21 a b 0 0 := by
    simp [encode, toNat_formatR_fields]
  refine ⟨wordOf_of_encode rfl hword, fun s hs => ?_⟩
  simp only [State.toNat_getX]
  refine ⟨fun hout => ?_, fun hin => ?_⟩
  · exact raises_of_command hword hs (by
      simp only [exec, execPst, rangeCheck_error_of_not_inRange hout, error_bind])
  · simp only [exec, execPst, rangeCheck_ok hin, ok_bind, command_ok _ hs]

/-- Settles O46: the command has no check. -/
theorem plenWritesLength : Obligations.PlenWritesLength := by
  refine ⟨lowBitsZero_two_fields (by decide), polyField_b (by decide), fun a b => ?_⟩
  have hword : (encode (.plen a b)).toNat = wordR 0x22 a b 0 0 := by
    simp [encode, toNat_formatR_fields]
  exact ⟨wordOf_of_encode rfl hword, fun s hs => command_ok (w := encode (.plen a b)) _ hs⟩

/-- Settles O47, by whether the register has the coefficient. -/
theorem pidxReadsCoefficient : Obligations.PidxReadsCoefficient := by
  refine ⟨lowBitsZero_three_fields (by decide), polyField_b (by decide), fun a b c => ?_⟩
  have hword : (encode (.pidx a b c)).toNat = wordR 0x23 a b c 0 := by
    simp [encode, toNat_formatR_fields]
  refine ⟨wordOf_of_encode rfl hword, fun s hs => ⟨fun hout => ?_, fun hin => ?_⟩⟩
  · have hnone : (s.getP b)[s.unsignedX c]? = none := List.getElem?_eq_none hout
    exact raises_of_command hword hs (by rw [exec, execPidx, hnone]; rfl)
  · have hsome : (s.getP b)[s.unsignedX c]? = some (s.getP b)[(s.getX c).toNat] :=
      List.getElem?_eq_getElem hin
    rw [exec, execPidx, hsome, command_ok _ hs, zext8_eq_ofNat]

/-- Settles O48: the check for an empty operand, then that of the product's length. -/
theorem pmulWritesProduct : Obligations.PmulWritesProduct := by
  refine ⟨lowBitsZero_three_fields (by decide), polyField_a (by decide), polyField_b (by decide),
    polyField_c (by decide), fun a b c => ?_⟩
  have hword : (encode (.pmul a b c)).toNat = wordR 0x24 a b c 0 := by
    simp [encode, toNat_formatR_fields]
  refine ⟨wordOf_of_encode rfl hword, fun s hs =>
    ⟨fun hempty => ?_, fun hb hc hlong => ?_, fun hb hc hfits => ?_⟩⟩
  · exact raises_of_command hword hs (by
      simp only [exec, execPmul, raiseIf_pos _ hempty, error_bind])
  · exact raises_of_command hword hs (by
      simp only [exec, execPmul, raiseIf_neg _ (not_or.2 ⟨hb, hc⟩), ok_bind,
        raiseIf_pos _ hlong, error_bind])
  · simp only [exec, execPmul, raiseIf_neg _ (not_or.2 ⟨hb, hc⟩), ok_bind,
      raiseIf_neg _ (Nat.not_lt.2 hfits), command_ok _ hs]

/-- Settles O49: the command raises what `pmod` raises, and with nonzero leading coefficients
`pmod` answers a remainder. -/
theorem pmodWritesRemainder : Obligations.PmodWritesRemainder := by
  refine ⟨lowBitsZero_three_fields (by decide), polyField_a (by decide), polyField_b (by decide),
    polyField_c (by decide), fun a b c => ?_⟩
  have hword : (encode (.pmod a b c)).toNat = wordR 0x25 a b c 0 := by
    simp [encode, toNat_formatR_fields]
  refine ⟨wordOf_of_encode rfl hword, fun s hs => ?_⟩
  have raised {cause : Cause} {info : Nat}
      (h : pmod (s.getP b) (s.getP c) = .error ⟨cause, info⟩) :
      Raises (.pmod a b c) (wordR 0x25 a b c 0) s cause info :=
    raises_of_command hword hs (by rw [exec, execPmod, h, error_bind])
  have written {m : Poly} (h : pmod (s.getP b) (s.getP c) = .ok m) :
      exec (.pmod a b c) s = .next (s.setP a m) := by
    rw [exec, execPmod, h, ok_bind, command_ok _ hs]
  refine ⟨fun hempty => raised ?_, fun hne hdue hzero => raised (pmod_zero_lead hne hdue hzero),
    fun hshort => written (pmod_short hshort), fun _ _ hcur hdiv => ?_⟩
  · rw [hempty, pmod_nil]
  · obtain ⟨m, hm⟩ := exists_pmod_ok (head?_ne_zero hcur) hdiv
    exact ⟨m, hm, pmod_length_lt hm, written hm⟩

/-- Settles O50, by the check of the generator's length. -/
theorem pgenWritesGenerator : Obligations.PgenWritesGenerator := by
  refine ⟨lowBitsZero_two_fields (by decide), polyField_a (by decide), fun a b => ?_⟩
  have hword : (encode (.pgen a b)).toNat = wordR 0x26 a b 0 0 := by
    simp [encode, toNat_formatR_fields]
  refine ⟨wordOf_of_encode rfl hword, fun s hs => ?_⟩
  simp only [State.toNat_getX]
  refine ⟨fun hlong => ?_, fun hfits => ?_⟩
  · exact raises_of_command hword hs (by
      simp only [exec, execPgen, raiseIf_pos _ hlong, error_bind])
  · simp only [exec, execPgen, raiseIf_neg _ (Nat.not_lt.2 hfits), ok_bind, command_ok _ hs]

end Sys2Proof.Claims
end

section
/-! Block ECC (R131, R132): `ecc` gives the one sequence of `ec` bytes that continues the data to a
multiple of the generator, and the properties of R132 follow from that. -/

namespace Sys2Proof.Machine

/-! Coefficients at the low-degree end. -/

theorem coeff_append_of_lt {a : List Byte} (b : List Byte) {k : Nat} (h : k < a.length) :
    coeff (a ++ b) k = coeff a k := List.getD_append a b 0 k h

theorem coeff_append_of_le {a : List Byte} (b : List Byte) {k : Nat} (h : a.length ≤ k) :
    coeff (a ++ b) k = coeff b (k - a.length) := List.getD_append_right a b 0 k h

/-- Two continuations of a sequence differ as they do behind zeros in its place. -/
theorem coeff_append_eq_xor (a b c : List Byte) (k : Nat) :
    coeff (a ++ b) k ^^^ coeff (a ++ c) k =
      coeff (List.replicate a.length 0#8 ++ b) k ^^^ coeff (List.replicate a.length 0#8 ++ c) k := by
  obtain h | h := Nat.lt_or_ge k a.length
  · simp [coeff_append_of_lt, h]
  · simp [coeff_append_of_le, h]

theorem coeff_zipWith_xor {a b : List Byte} (h : a.length = b.length) (k : Nat) :
    coeff (List.zipWith (· ^^^ ·) a b) k = coeff a k ^^^ coeff b k := by
  obtain hk | hk := Nat.lt_or_ge k a.length
  · simp [coeff, hk, h ▸ hk]
  · rw [coeff_of_length_le (by simpa using .inl hk), coeff_of_length_le hk,
      coeff_of_length_le (h ▸ hk), BitVec.xor_zero]

theorem coeff_zeros (n k : Nat) : coeff (List.replicate n 0#8) k = 0#8 := by
  simpa using coeff_zeros_append n [] k

/-- A sequence of zero coefficients that does not start with a zero is empty. -/
theorem eq_nil_of_coeff_eq_zero {m : Poly} (hhead : m.head? ≠ some 0#8)
    (h : ∀ k, coeff m k = 0#8) : m = [] := by
  cases m with
  | nil => rfl
  | cons x m => exact absurd (congrArg some (h 0)) hhead

/-! Products with a fixed second operand. -/

theorem coeff_pmul_zipWith_xor {p q : Poly} (h : p.length = q.length) (b : Poly) (k : Nat) :
    coeff (pmul (List.zipWith (· ^^^ ·) p q) b) k = coeff (pmul p b) k ^^^ coeff (pmul q b) k := by
  induction p generalizing q k with
  | nil =>
    obtain rfl := List.length_eq_zero_iff.1 h.symm
    exact BitVec.xor_self.symm
  | cons x p ih =>
    cases q with
    | nil => cases h
    | cons y q =>
      have hlen : p.length = q.length := Nat.succ.inj h
      rw [List.zipWith_cons_cons, coeff_pmul_cons, coeff_pmul_cons, coeff_pmul_cons,
        Claims.gmul_comm, Claims.gmul_xor, Claims.gmul_comm _ x, Claims.gmul_comm _ y]
      cases k with
      | zero => simp
      | succ k =>
        rw [coeff_cons_succ, coeff_cons_succ, coeff_cons_succ, ih hlen]
        ac_rfl

/-- A product by a monic polynomial that is zero in as many leading places as the first operand has
coefficients is zero throughout. -/
theorem coeff_pmul_eq_zero {g : Poly} (hg : coeff g 0 = 1#8) {q : Poly}
    (h : ∀ k < q.length, coeff (pmul q g) k = 0#8) (k : Nat) : coeff (pmul q g) k = 0#8 := by
  induction q generalizing k with
  | nil => rfl
  | cons x q ih =>
    have hx : x = 0#8 := by
      have hlead := h 0 (Nat.succ_pos _)
      rwa [coeff_pmul_cons, hg, Claims.gmul_one, coeff_cons_zero, BitVec.xor_zero] at hlead
    subst hx
    have hrow (k : Nat) : coeff (pmul (0#8 :: q) g) k = coeff (0#8 :: pmul q g) k := by
      rw [coeff_pmul_cons, gmul_zero_left, BitVec.zero_xor]
    rw [hrow]
    cases k with
    | zero => rfl
    | succ k =>
      refine ih (fun j hj => ?_) k
      have hj := h (j + 1) (Nat.succ_lt_succ hj)
      rwa [hrow, coeff_cons_succ] at hj

theorem coeff_pgen_zero (n : Nat) : coeff (pgen n) 0 = 1#8 := by
  rw [coeff, List.getD_eq_getElem?_getD, ← List.head?_eq_getElem?, pgen_head]
  rfl

theorem coeff_pgen_zero_ne_zero (n : Nat) : coeff (pgen n) 0 ≠ 0#8 := by
  rw [coeff_pgen_zero]
  decide

/-! Multiples of the generator. -/

/-- `f` gives the coefficients, highest degree first, of a polynomial of length `len` that is a
multiple of the generator of degree `n`. -/
def IsMultiple (n len : Nat) (f : Nat → Byte) : Prop :=
  ∃ q : Poly, q.length + n = len ∧ ∀ k, f k = coeff (pmul q (pgen n)) k

section
variable {n len : Nat} {f g : Nat → Byte}

theorem isMultiple_zero (h : n ≤ len) : IsMultiple n len fun _ => 0#8 := by
  refine ⟨List.replicate (len - n) 0#8, by rw [List.length_replicate]; omega, fun k => ?_⟩
  have hproduct := coeff_pmul_zeros_append (len - n) [] (pgen n) k
  rw [pmul, List.append_nil, coeff_zeros] at hproduct
  exact hproduct.symm

theorem IsMultiple.congr (hf : IsMultiple n len f) (h : ∀ k, g k = f k) : IsMultiple n len g :=
  (funext h : g = f) ▸ hf

theorem IsMultiple.xor (hf : IsMultiple n len f) (hg : IsMultiple n len g) :
    IsMultiple n len fun k => f k ^^^ g k := by
  obtain ⟨p, hp, hf⟩ := hf
  obtain ⟨q, hq, hg⟩ := hg
  have hlen : p.length = q.length := by omega
  refine ⟨List.zipWith (· ^^^ ·) p q, by rw [List.length_zipWith]; omega, fun k => ?_⟩
  rw [coeff_pmul_zipWith_xor hlen, ← hf, ← hg]

/-- A multiple that is zero in all but its last `n` places is zero. -/
theorem IsMultiple.eq_zero (hf : IsMultiple n len f) (h : ∀ k, k + n < len → f k = 0#8) (k : Nat) :
    f k = 0#8 := by
  obtain ⟨q, hq, hf⟩ := hf
  rw [hf]
  exact coeff_pmul_eq_zero (coeff_pgen_zero n) (fun j hj => hf j ▸ h j (by omega)) k

/-- Leading zeros keep a multiple a multiple. -/
theorem IsMultiple.zeros_append {c : List Byte} (hc : IsMultiple n len (coeff c)) (z : Nat) :
    IsMultiple n (z + len) (coeff (List.replicate z 0#8 ++ c)) := by
  obtain ⟨q, hq, hc⟩ := hc
  refine ⟨List.replicate z 0#8 ++ q, by simp; omega, fun k => ?_⟩
  rw [coeff_pmul_zeros_append, coeff_zeros_append, coeff_zeros_append, hc]

/-- Dividend and remainder, aligned at the low-degree end of `len` places, differ by a multiple of
the generator (R119). -/
theorem isMultiple_of_pmod {cur m : Poly} (h : pmod cur (pgen n) = .ok m) (hn : n ≤ len)
    (hcur : cur.length ≤ len) :
    IsMultiple n len fun k => coeff (List.replicate (len - cur.length) 0#8 ++ cur) k ^^^
      coeff (List.replicate (len - m.length) 0#8 ++ m) k := by
  obtain ⟨q, hle, hlen, hcoeff⟩ := exists_isQuotient h
  rw [pgen_length] at hlen
  refine ⟨List.replicate (len - n - q.length) 0#8 ++ q, ?_, fun k => ?_⟩
  · rw [List.length_append, List.length_replicate]
    omega
  have hremainder : List.replicate (len - m.length) 0#8 ++ m =
      List.replicate (len - cur.length) 0#8 ++
        (List.replicate (cur.length - m.length) 0#8 ++ m) := by
    rw [← List.append_assoc, List.replicate_append_replicate]
    congr 2
    omega
  have hproduct : coeff (pmul (List.replicate (len - n - q.length) 0#8 ++ q) (pgen n)) k =
      coeff (List.replicate (len - cur.length) 0#8 ++ pmul q (pgen n)) k := by
    rw [coeff_pmul_zeros_append]
    cases q with
    | nil => simp [pmul, coeff_zeros]
    | cons x q =>
      rw [List.length_cons] at hlen ⊢
      congr 3
      omega
  beta_reduce
  rw [hremainder, hproduct, coeff_zeros_append_xor hcoeff, BitVec.xor_assoc, BitVec.xor_self,
    BitVec.xor_zero]

end

/-! The ECC. -/

/-- The left zero padding of R131. -/
theorem padLeft_eq {m : Poly} {n : Nat} (h : m.length ≤ n) :
    padLeft m n = List.replicate (n - m.length) 0#8 ++ m := by
  refine eq_of_coeff_eq (by simp; omega) fun k => ?_
  rw [coeff_zeros_append]
  obtain hk | hk := Nat.lt_or_ge k n
  · have hidx : k + m.length - n = k - (n - m.length) := by omega
    have hpad : coeff (padLeft m n) k =
        if n ≤ k + m.length then coeff m (k + m.length - n) else 0#8 := by
      simp [coeff, padLeft, hk]
    rw [hpad, hidx, ← ite_not]
    exact if_congr (by omega) rfl rfl
  · rw [coeff_of_length_le (by simpa using hk), if_neg (by omega), coeff_of_length_le (by omega)]

/-- The raw polynomial divides without a fault (R132 (b)): it is all zero and short, or it has a
nonzero leading coefficient. -/
theorem exists_pmod_construct (d : List Byte) (n : Nat) :
    ∃ m, pmod (construct d n) (pgen n) = .ok m := by
  have hhead := trim_head d
  cases htrim : trim d with
  | nil => exact ⟨_, pmod_short (by simp [construct, htrim, pgen_length])⟩
  | cons x c =>
    exact exists_pmod_ok (by simpa [construct, htrim] using hhead) (coeff_pgen_zero_ne_zero n)

/-- `ecc` by its one division. -/
theorem ecc_of_pmod {d : List Byte} {n : Nat} {m : Poly}
    (h : pmod (construct d n) (pgen n) = .ok m) : ecc d n = .ok (padLeft m n) := by
  rw [ecc, pgen_length, Nat.add_sub_cancel, h, ok_bind]

theorem exists_ecc (d : List Byte) (n : Nat) : ∃ e, ecc d n = .ok e := by
  obtain ⟨m, hm⟩ := exists_pmod_construct d n
  exact ⟨_, ecc_of_pmod hm⟩

/-- Data followed by its ECC is a multiple of the generator. -/
theorem isMultiple_ecc {d e : List Byte} {n : Nat} (h : ecc d n = .ok e) :
    IsMultiple n (d.length + n) (coeff (d ++ e)) := by
  obtain ⟨m, hm⟩ := exists_pmod_construct d n
  obtain rfl : padLeft m n = e := Except.ok.inj ((ecc_of_pmod hm).symm.trans h)
  have hle : m.length ≤ n := by
    have hlt := pmod_length_lt hm
    rw [pgen_length] at hlt
    omega
  have htrim := trim_length_le d
  have hlen : (construct d n).length = (trim d).length + n := construct_length d n
  refine (isMultiple_of_pmod hm (Nat.le_add_left n d.length) (by omega)).congr fun k => ?_
  have hraw : List.replicate (d.length + n - (construct d n).length) 0#8 ++ construct d n =
      d ++ List.replicate n 0#8 := by
    rw [hlen, Nat.add_sub_add_right, construct, ← List.append_assoc, zeros_append_trim]
    rfl
  have hpad : List.replicate (d.length + n - m.length) 0#8 ++ m =
      List.replicate d.length 0#8 ++ padLeft m n := by
    rw [padLeft_eq hle, ← List.append_assoc, List.replicate_append_replicate]
    congr 2
    omega
  have hsplit := coeff_append_eq_xor d (padLeft m n) (List.replicate n 0#8) k
  rw [List.replicate_append_replicate, coeff_zeros, BitVec.xor_zero] at hsplit
  rw [hraw, hpad, ← hsplit, BitVec.xor_comm, BitVec.xor_assoc, BitVec.xor_self, BitVec.xor_zero]

/-- The ECC is the one sequence of `n` bytes that continues the data to a multiple of the
generator. -/
theorem ecc_ok_iff {d e : List Byte} {n : Nat} :
    ecc d n = .ok e ↔ e.length = n ∧ IsMultiple n (d.length + n) (coeff (d ++ e)) := by
  refine ⟨fun h => ⟨ecc_length h, isMultiple_ecc h⟩, fun ⟨hlen, hmul⟩ => ?_⟩
  obtain ⟨e', he'⟩ := exists_ecc d n
  have hlen' := ecc_length he'
  have hzero := (hmul.xor (isMultiple_ecc he')).eq_zero fun k hk => by
    rw [coeff_append_of_lt _ (by omega), coeff_append_of_lt _ (by omega), BitVec.xor_self]
  have heq : d ++ e = d ++ e' := eq_of_coeff_eq (by simp [hlen, hlen']) fun k =>
    BitVec.xor_eq_zero_iff.1 (hzero k)
  rw [he', List.append_cancel_left heq]

end Sys2Proof.Machine

namespace Sys2Proof.Claims

open Sys2Proof.Machine

/-- Settles O51: of all-zero data, zeros are the continuation to a multiple. -/
theorem eccNeverFaults : Obligations.EccNeverFaults := by
  intro d n
  obtain ⟨e, he⟩ := exists_ecc d n
  refine ⟨e, he, ecc_length he, fun hzero => ?_⟩
  have hd : d = List.replicate d.length 0#8 := List.eq_replicate_iff.2 ⟨rfl, hzero⟩
  have hzeros : ecc d n = .ok (List.replicate n 0#8) := by
    refine ecc_ok_iff.2 ⟨List.length_replicate, (isMultiple_zero (by omega)).congr fun k => ?_⟩
    rw [hd, List.replicate_append_replicate, coeff_zeros]
  exact Except.ok.inj (he.symm.trans hzeros)

/-- Settles O52: the remainder differs from a multiple by a multiple, so it is one, too short not to
be zero. -/
theorem dataWithEccIsMultipleOfGenerator : Obligations.DataWithEccIsMultipleOfGenerator := by
  intro d e n h
  have hlen : (d ++ e).length = d.length + n := by rw [List.length_append, ecc_length h]
  rw [construct_zero_shift]
  obtain ⟨m, hm⟩ := exists_pmod_ok (trim_head (d ++ e)) (coeff_pgen_zero_ne_zero n)
  have hshort := pmod_length_lt hm
  rw [pgen_length] at hshort
  have hdiff := isMultiple_of_pmod (len := d.length + n) hm (by omega)
    (hlen ▸ trim_length_le (d ++ e))
  rw [← hlen, zeros_append_trim, hlen] at hdiff
  have hremainder : IsMultiple n (d.length + n)
      (coeff (List.replicate (d.length + n - m.length) 0#8 ++ m)) := by
    refine ((isMultiple_ecc h).xor hdiff).congr fun k => ?_
    rw [← BitVec.xor_assoc, BitVec.xor_self, BitVec.zero_xor]
  have hzero := hremainder.eq_zero fun k hk => by
    rw [coeff_zeros_append, if_pos (by omega)]
  have hnil : m = [] := eq_nil_of_coeff_eq_zero (pmod_head hm (trim_head _)) fun k => by
    have hk := hzero (d.length + n - m.length + k)
    rwa [coeff_zeros_append, if_neg (by omega), Nat.add_sub_cancel_left] at hk
  rw [hm, hnil]

/-- Settles O53: leading zeros keep the continued data a multiple. -/
theorem eccIgnoresLeadingZeros : Obligations.EccIgnoresLeadingZeros := by
  intro d n k
  obtain ⟨e, he⟩ := exists_ecc d n
  obtain ⟨hlen, hmul⟩ := ecc_ok_iff.1 he
  rw [he]
  refine ecc_ok_iff.2 ⟨hlen, ?_⟩
  rw [List.append_assoc, List.length_append, List.length_replicate, Nat.add_assoc]
  exact hmul.zeros_append k

/-- Settles O54: the exclusive or of the continued data is a multiple. -/
theorem eccIsLinear : Obligations.EccIsLinear := by
  intro d1 d2 e1 e2 n hd h1 h2
  obtain ⟨hlen1, hmul1⟩ := ecc_ok_iff.1 h1
  obtain ⟨hlen2, hmul2⟩ := ecc_ok_iff.1 h2
  rw [← hd] at hmul2
  refine ecc_ok_iff.2 ⟨by simp [hlen1, hlen2], ?_⟩
  rw [List.length_zipWith, ← hd, Nat.min_self, ← List.zipWith_append hd]
  exact (hmul1.xor hmul2).congr fun k => coeff_zipWith_xor (by simp [hd, hlen1, hlen2]) k

end Sys2Proof.Claims
end

section
/-! Interleaving (R137, R138): a phase is its columns in order, and has every byte of its sequences
once. -/

namespace Sys2Proof.Machine

theorem maxLength_eq_foldl (seqs : List (List Byte)) :
    maxLength seqs = (seqs.map List.length).foldl max 0 := by
  induction seqs with
  | nil => rfl
  | cons q seqs ih =>
    rw [maxLength, ih, List.map_cons, List.foldl_cons, Nat.max_comm 0, List.foldl_assoc]

theorem maxLength_le_iff {seqs : List (List Byte)} {m : Nat} :
    maxLength seqs ≤ m ↔ ∀ q ∈ seqs, q.length ≤ m := by
  induction seqs with
  | nil => simp [maxLength]
  | cons q seqs ih => rw [maxLength, max_le_iff, ih, List.forall_mem_cons]

/-- To go over the indices of a list is to go over its elements. -/
theorem range_flatMap_getD (seqs : List (List Byte)) (f : List Byte → List Byte) :
    ((List.range seqs.length).flatMap fun r => f (seqs.getD r [])) = seqs.flatMap f := by
  induction seqs with
  | nil => rfl
  | cons q seqs ih =>
    rw [List.length_cons, List.range_succ_eq_map, List.flatMap_cons, List.flatMap_map,
      List.flatMap_cons, ← ih]
    rfl

theorem column_eq_flatMap (seqs : List (List Byte)) (i : Nat) :
    column seqs i = seqs.flatMap fun q => q[i]?.toList :=
  List.filterMap_eq_flatMap_toList _ _

/-- The bytes of one sequence, index by index. -/
theorem range_flatMap_getElem? {q : List Byte} {m : Nat} (h : q.length ≤ m) :
    ((List.range m).flatMap fun i => q[i]?.toList) = q := by
  induction q generalizing m with
  | nil => simp
  | cons b q ih =>
    obtain ⟨m, rfl⟩ := Nat.exists_eq_add_of_le' (Nat.one_le_of_lt h)
    rw [List.range_succ_eq_map, List.flatMap_cons, List.flatMap_map]
    exact congrArg (b :: ·) (ih (Nat.le_of_succ_le_succ h))

/-- The columns up to any index past the longest sequence have every byte once. -/
theorem range_columns_perm {seqs : List (List Byte)} {m : Nat} (h : maxLength seqs ≤ m) :
    ((List.range m).flatMap (column seqs)).Perm seqs.flatten := by
  rw [funext (column_eq_flatMap seqs)]
  induction seqs with
  | nil => simp
  | cons q seqs ih =>
    obtain ⟨hq, hseqs⟩ := max_le_iff.1 h
    simp only [List.flatMap_cons, List.flatten_cons]
    refine (List.flatMap_append_perm _ _ _).symm.trans ?_
    rw [range_flatMap_getElem? hq]
    exact (ih hseqs).append_left q

theorem columns_perm (seqs : List (List Byte)) : (columns seqs).Perm seqs.flatten :=
  range_columns_perm le_rfl

theorem columns_singleton (q : List Byte) : columns [q] = q := by
  rw [columns, funext (column_eq_flatMap [q])]
  simp only [List.flatMap_singleton]
  exact range_flatMap_getElem? (Nat.le_max_left q.length 0)

/-! Sequences of one length. -/

/-- In a list put together from pieces of one length, a piece stands at its multiple of it. -/
theorem getElem?_flatMap_of_length_eq {l : List Nat} {f : Nat → List Byte} {n : Nat}
    (hf : ∀ a ∈ l, (f a).length = n) {i a : Nat} (hi : l[i]? = some a) {r : Nat} (hr : r < n) :
    (l.flatMap f)[i * n + r]? = (f a)[r]? := by
  induction l generalizing i with
  | nil => cases hi
  | cons b l ih =>
    obtain ⟨hb, hl⟩ := List.forall_mem_cons.1 hf
    rw [List.flatMap_cons]
    cases i with
    | zero =>
      obtain rfl : b = a := Option.some.inj hi
      rw [Nat.zero_mul, Nat.zero_add, List.getElem?_append_left (hb ▸ hr)]
    | succ i =>
      have hidx : (i + 1) * n + r - n = i * n + r := by rw [Nat.succ_mul]; omega
      rw [List.getElem?_append_right (by rw [hb, Nat.succ_mul]; omega), hb, hidx]
      exact ih hl hi

theorem column_of_length_eq {seqs : List (List Byte)} {k i : Nat} (h : ∀ q ∈ seqs, q.length = k)
    (hi : i < k) : column seqs i = seqs.map fun q => q.getD i 0 := by
  rw [column, ← List.filterMap_eq_map]
  refine List.filterMap_congr fun q hq => ?_
  rw [List.getElem?_eq_getElem (h q hq ▸ hi), Function.comp_apply,
    List.getD_eq_getElem q _ (h q hq ▸ hi)]

/-- Sequences of one length stand in column-major order (R138). -/
theorem columns_getElem? {seqs : List (List Byte)} {k i r : Nat} (h : ∀ q ∈ seqs, q.length = k)
    (hi : i < k) (hr : r < seqs.length) :
    (columns seqs)[i * seqs.length + r]? = (seqs.getD r [])[i]? := by
  have hlen : seqs[r].length = k := h _ (List.getElem_mem hr)
  have hmax : maxLength seqs = k :=
    le_antisymm (maxLength_le_iff.2 fun q hq => (h q hq).le)
      (hlen ▸ maxLength_le_iff.1 le_rfl _ (List.getElem_mem hr))
  have hcol : ∀ j ∈ List.range k, (column seqs j).length = seqs.length := fun j hj => by
    rw [column_of_length_eq h (List.mem_range.1 hj), List.length_map]
  rw [columns, hmax, getElem?_flatMap_of_length_eq hcol (List.getElem?_range hi) hr,
    column_of_length_eq h hi, List.getElem?_map, List.getElem?_eq_getElem hr, Option.map_some,
    List.getD_eq_getElem seqs _ hr, getElem?_eq_coeff (hlen ▸ hi), coeff]

/-- What follows a phase leaves its column-major order as it is. -/
theorem columns_append_getElem? {seqs : List (List Byte)} {k i r : Nat}
    (h : ∀ q ∈ seqs, q.length = k) (hi : i < k) (hr : r < seqs.length) (rest : List Byte) :
    (columns seqs ++ rest)[i * seqs.length + r]? = (seqs.getD r [])[i]? := by
  have hlen : (seqs.getD r []).length = k := by
    rw [List.getD_eq_getElem seqs _ hr]
    exact h _ (List.getElem_mem hr)
  have hbyte := columns_getElem? h hi hr
  obtain ⟨hin, -⟩ := List.getElem?_eq_some_iff.1 (hbyte.trans (getElem?_eq_coeff (hlen ▸ hi)))
  rw [List.getElem?_append_left hin, hbyte]

end Sys2Proof.Machine

namespace Sys2Proof.Claims

open Sys2Proof.Machine

theorem phase_eq_columns (seqs : List (List Byte)) : phase seqs = columns seqs := by
  rw [phase, columns, maxLength_eq_foldl]
  refine List.flatMap_congr fun i _ => ?_
  rw [column_eq_flatMap, ← range_flatMap_getD]
  refine List.flatMap_congr fun r _ => ?_
  split
  · rw [List.getElem?_eq_getElem ‹_›, List.getD_eq_getElem _ _ ‹_›, Option.toList_some]
  · rw [List.getElem?_eq_none (Nat.le_of_not_lt ‹_›), Option.toList_none]

/-- Settles O55, phase by phase. -/
theorem interleaveIsTwoPhases : Obligations.InterleaveIsTwoPhases := by
  intro ds es
  rw [phase_eq_columns, phase_eq_columns, interleave]

/-- Settles O56: what holds of the columns of each phase holds of the stream. -/
theorem interleaveKeepsEveryByte : Obligations.InterleaveKeepsEveryByte := by
  intro ds es
  refine ⟨(columns_perm ds).append (columns_perm es), interleave_length ds es,
    fun k hk i hi r hr => ?_, fun k hk i hi r hr => ?_, ?_⟩
  · exact columns_append_getElem? hk hi hr (columns es)
  · rw [interleave, Nat.add_assoc, ← columns_length, List.getElem?_append_right (Nat.le_add_right ..),
      Nat.add_sub_cancel_left, columns_getElem? hk hi hr]
  · rintro d e rfl rfl
    rw [interleave, columns_singleton, columns_singleton]

end Sys2Proof.Claims
end

section
/-! The block commands (R133 to R136, R139): the runs of a buffer in memory, the block table and its
checks, and the three commands. -/

namespace Sys2Proof.Machine

/-! Runs of a buffer (R135). -/

theorem State.memRead_add (s : State) (addr m n : Nat) :
    s.memRead addr (m + n) = s.memRead addr m ++ s.memRead (addr + m) n := by
  simp only [State.memRead, List.range_add, List.map_append, List.map_map, Function.comp_def,
    Nat.add_assoc]

/-- The consecutive runs of a buffer in memory stand at the running offset. -/
theorem runs_memRead (s : State) (f : Nat → Nat) (addr n : Nat) :
    runs ((List.range n).map f) (s.memRead addr ((List.range n).map f).sum) =
      (List.range n).map fun r => s.memRead (addr + ((List.range r).map f).sum) (f r) := by
  induction n generalizing addr f with
  | zero => rfl
  | succ n ih =>
    simp only [List.range_succ_eq_map, List.map_cons, List.sum_cons, List.map_map]
    rw [runs, State.memRead_add, List.take_left' (State.memRead_length ..),
      List.drop_left' (State.memRead_length ..), ih (f ∘ Nat.succ)]
    refine congrArg _ (List.map_congr_left fun r _ => ?_)
    simp [List.range_succ_eq_map, Nat.add_assoc]

/-- The packed ECC is the ECC of each block's run of data, in block order (R135, R136). -/
theorem exists_eccBlocks (blocks : List RsBlock) (buf : List Byte) :
    ∃ es : List (List Byte), es.length = blocks.length ∧ eccBlocks blocks buf = .ok es.flatten ∧
      ∀ (r : Nat) (b : RsBlock) (run : List Byte), blocks[r]? = some b →
        (runs (blocks.map RsBlock.data) buf)[r]? = some run →
        ∃ e, es[r]? = some e ∧ ecc run b.ec = .ok e := by
  induction blocks generalizing buf with
  | nil => exact ⟨[], rfl, rfl, fun _ _ _ h => nomatch h⟩
  | cons b blocks ih =>
    obtain ⟨e, he⟩ := exists_ecc (buf.take b.data) b.ec
    obtain ⟨es, hlen, hes, hblock⟩ := ih (buf.drop b.data)
    refine ⟨e :: es, congrArg (· + 1) hlen, by rw [eccBlocks, he, ok_bind, hes]; rfl, ?_⟩
    intro r b' run hb hrun
    cases r with
    | zero =>
      obtain rfl : b = b' := Option.some.inj hb
      obtain rfl : buf.take b.data = run := Option.some.inj hrun
      exact ⟨e, rfl, he⟩
    | succ r => exact hblock r b' run hb hrun

/-! The checks of the block table (R136). -/

/-- Blocks that pass leave the checks to the blocks behind them. -/
theorem checkBlocks_append {lmax : Nat} {pre : List RsBlock} (rest : List RsBlock) (r : Nat)
    (h : ∀ b ∈ pre, b.data ≤ b.total ∧ b.ec + 1 ≤ lmax ∧ b.total ≤ lmax) :
    checkBlocks lmax r (pre ++ rest) = checkBlocks lmax (r + pre.length) rest := by
  induction pre generalizing r with
  | nil => rfl
  | cons b pre ih =>
    obtain ⟨⟨hdata, hec, htotal⟩, hpre⟩ := List.forall_mem_cons.1 h
    rw [List.cons_append, checkBlocks, raiseIf_neg _ (Nat.not_lt.2 hdata), ok_bind,
      raiseIf_neg _ (Nat.not_lt.2 hec), ok_bind, raiseIf_neg _ (Nat.not_lt.2 htotal), ok_bind,
      ih (r + 1) hpre, List.length_cons, Nat.add_right_comm, Nat.add_assoc]

/-- A block of the table stands behind the blocks before it. -/
theorem exists_blockTable_eq_append (s : State) (t : Nat) {r n : Nat} (h : r < n) :
    ∃ rest, blockTable s t n = blockTable s t r ++ tableEntry s t r :: rest := by
  obtain ⟨k, rfl⟩ := Nat.exists_eq_add_of_lt h
  refine ⟨(List.range k).map fun j => tableEntry s t (r + (j + 1)), ?_⟩
  rw [blockTable, blockTable, Nat.add_assoc, List.range_add, List.map_append, List.range_succ_eq_map]
  simp [Function.comp_def]

end Sys2Proof.Machine

namespace Sys2Proof.Claims

open Sys2Proof.Machine

/-! The table in the words of the statements (R134, R135). -/

/-- The block table of a state. -/
def table (s : State) : List RsBlock := blockTable s s.tbase.toNat (nblk s)

theorem table_length (s : State) : (table s).length = nblk s := by
  simp [table, blockTable]

theorem table_getElem? (s : State) {r : Nat} (h : r < nblk s) :
    (table s)[r]? = some (tableEntry s s.tbase.toNat r) := by
  simp [table, blockTable, h]

theorem table_map_data (s : State) :
    (table s).map RsBlock.data = (List.range (nblk s)).map (data s) := List.map_map

theorem table_map_ec (s : State) :
    (table s).map RsBlock.ec = (List.range (nblk s)).map (ec s) := List.map_map

theorem sumData_table (s : State) : sumData (table s) = dataBefore s (nblk s) :=
  congrArg List.sum (table_map_data s)

theorem sumEc_table (s : State) : sumEc (table s) = ecBefore s (nblk s) :=
  congrArg List.sum (table_map_ec s)

theorem runs_table_data (s : State) (addr : Nat) :
    runs ((table s).map RsBlock.data) (s.memRead addr (dataBefore s (nblk s))) =
      (List.range (nblk s)).map fun r => s.memRead (addr + dataBefore s r) (data s r) := by
  rw [table_map_data]
  exact runs_memRead s (data s) addr (nblk s)

theorem runs_table_ec (s : State) (addr : Nat) :
    runs ((table s).map RsBlock.ec) (s.memRead addr (ecBefore s (nblk s))) =
      (List.range (nblk s)).map fun r => s.memRead (addr + ecBefore s r) (ec s r) := by
  rw [table_map_ec]
  exact runs_memRead s (ec s) addr (nblk s)

/-! The checks of `ECCB` and `ILV` (R136). -/

theorem checkBlocks_table {s : State} (h : ∀ r < nblk s, BlockPasses s r) :
    checkBlocks s.params.lmax 0 (table s) = .ok () :=
  checkBlocks_ok_iff.2 (List.forall_mem_map.2 fun r hr => h r (List.mem_range.1 hr))

/-- The checks of block `r`, in the words of the statements. -/
theorem checkBlocks_tableEntry (s : State) (r : Nat) (rest : List RsBlock) :
    checkBlocks s.params.lmax r (tableEntry s s.tbase.toNat r :: rest) = (do
      raiseIf (total s r < data s r) ⟨.invalidArgument, r⟩
      raiseIf (s.params.lmax < ec s r + 1) ⟨.capacity, ec s r + 1⟩
      raiseIf (s.params.lmax < total s r) ⟨.capacity, total s r⟩
      checkBlocks s.params.lmax (r + 1) rest) := rfl

/-- The first block that fails decides what the checks of the blocks raise. -/
theorem checkBlocks_table_error {s : State} {r : Nat} {t : Trap} (hr : r < nblk s)
    (hbefore : ∀ q < r, BlockPasses s q)
    (hfail : ∀ rest, checkBlocks s.params.lmax r (tableEntry s s.tbase.toNat r :: rest) = .error t) :
    checkBlocks s.params.lmax 0 (table s) = .error t := by
  obtain ⟨rest, hsplit⟩ := exists_blockTable_eq_append s s.tbase.toNat hr
  have hpre : (blockTable s s.tbase.toNat r).length = r := by simp [blockTable]
  rw [table, hsplit, checkBlocks_append, hpre, Nat.zero_add, hfail]
  exact List.forall_mem_map.2 fun q hq => hbefore q (List.mem_range.1 hq)

/-- The checks in their order, in the words of the statements. -/
theorem checkedBlocks_eq (s : State) : checkedBlocks s = (do
    rangeCheck s s.tbase.toNat (2 * nblk s)
    checkBlocks s.params.lmax 0 (table s)
    rangeCheck s s.dbase.toNat (dataBefore s (nblk s))
    rangeCheck s s.ebase.toNat (ecBefore s (nblk s))
    .ok (table s)) := by
  rw [← sumData_table, ← sumEc_table]
  rfl

theorem checkedBlocks_ok {s : State} (h : BlocksPass s) : checkedBlocks s = .ok (table s) := by
  obtain ⟨⟨htable, hblocks⟩, hdata, hecc⟩ := h
  rw [checkedBlocks_eq, rangeCheck_ok htable, ok_bind, checkBlocks_table hblocks, ok_bind,
    rangeCheck_ok hdata, ok_bind, rangeCheck_ok hecc, ok_bind]

/-- A command that begins with the checks of R136 raises their faults, in their order. -/
theorem blockFaults_of_exec {i : Instr} {n : Nat} {s : State} {f : List RsBlock → Except Trap State}
    (hexec : exec i s = command (encode i) s (checkedBlocks s >>= f))
    (hn : (encode i).toNat = n) (hs : s.faulted = false) : BlockFaults i n s := by
  have raised {c : Cause} {info : Nat} (h : checkedBlocks s = .error ⟨c, info⟩) :
      Raises i n s c info :=
    raises_of_command hn hs (by rw [hexec, h, error_bind])
  have raisedBlock {c : Cause} {info : Nat} (htable : InRange s s.tbase.toNat (2 * nblk s))
      (h : checkBlocks s.params.lmax 0 (table s) = .error ⟨c, info⟩) : Raises i n s c info :=
    raised (by rw [checkedBlocks_eq, rangeCheck_ok htable, ok_bind, h, error_bind])
  refine ⟨fun hout => raised ?_, fun htable r hr hbefore => ⟨fun hdata => ?_, fun hdata hec => ?_,
    fun hdata hec htotal => ?_⟩, fun ⟨htable, hblocks⟩ hout => raised ?_,
    fun ⟨htable, hblocks⟩ hin hout => raised ?_⟩
  · rw [checkedBlocks_eq, rangeCheck_error_of_not_inRange hout, error_bind]
  · refine raisedBlock htable (checkBlocks_table_error hr hbefore fun rest => ?_)
    rw [checkBlocks_tableEntry, raiseIf_pos _ hdata, error_bind]
  · refine raisedBlock htable (checkBlocks_table_error hr hbefore fun rest => ?_)
    rw [checkBlocks_tableEntry, raiseIf_neg _ (Nat.not_lt.2 hdata), ok_bind, raiseIf_pos _ hec,
      error_bind]
  · refine raisedBlock htable (checkBlocks_table_error hr hbefore fun rest => ?_)
    rw [checkBlocks_tableEntry, raiseIf_neg _ (Nat.not_lt.2 hdata), ok_bind,
      raiseIf_neg _ (Nat.not_lt.2 hec), ok_bind, raiseIf_pos _ htotal, error_bind]
  · rw [checkedBlocks_eq, rangeCheck_ok htable, ok_bind, checkBlocks_table hblocks, ok_bind,
      rangeCheck_error_of_not_inRange hout, error_bind]
  · rw [checkedBlocks_eq, rangeCheck_ok htable, ok_bind, checkBlocks_table hblocks, ok_bind,
      rangeCheck_ok hin, ok_bind, rangeCheck_error_of_not_inRange hout, error_bind]

/-! The words of the block commands (R71, R77 item 2). -/

theorem lowBitsZero_ecc1 : LowBitsZero 0x30 8 := by
  intro w hw hlow
  obtain ⟨hillegal, hraise⟩ := illegalWordsAreTheFiveItems w
  exact hraise (hillegal.2 (.inr (.inr (.inr (.inr (.inr (.inl ⟨by simp [hw], hlow⟩)))))))

theorem lowBitsZero_eccb : LowBitsZero 0x31 24 := by
  intro w hw hlow
  obtain ⟨hillegal, hraise⟩ := illegalWordsAreTheFiveItems w
  exact hraise (hillegal.2 (.inr (.inl ⟨by simp [hw], hlow⟩)))

theorem lowBitsZero_ilv : LowBitsZero 0x32 20 := by
  intro w hw hlow
  obtain ⟨hillegal, hraise⟩ := illegalWordsAreTheFiveItems w
  exact hraise (hillegal.2 (.inr (.inr (.inl ⟨hw, hlow⟩))))

/-! The commands. -/

/-- Settles O57: two capacity checks, two range checks, and an ECC that never faults. -/
theorem ecc1StoresBlockEcc : Obligations.Ecc1StoresBlockEcc := by
  refine ⟨lowBitsZero_ecc1, fun a b c d => ?_⟩
  have hword : (encode (.ecc1 a b c d)).toNat = wordR 0x30 a b c d :=
    toNat_formatR_xfields 0x30 a b c d
  refine ⟨wordOf_of_encode rfl hword, fun s hs => ?_⟩
  simp only [State.toNat_getX]
  refine ⟨fun hlong => ?_, fun hgen hlong => ?_, fun hgen hraw hout => ?_,
    fun hgen hraw hin hout => ?_, fun hgen hraw hin hout => ?_⟩
  · exact raises_of_command hword hs (by
      simp only [exec, execEcc1, raiseIf_pos _ hlong, error_bind])
  · exact raises_of_command hword hs (by
      simp only [exec, execEcc1, raiseIf_neg _ (Nat.not_lt.2 hgen), ok_bind, raiseIf_pos _ hlong,
        error_bind])
  · exact raises_of_command hword hs (by
      simp only [exec, execEcc1, raiseIf_neg _ (Nat.not_lt.2 hgen), ok_bind,
        raiseIf_neg _ (Nat.not_lt.2 hraw), rangeCheck_error_of_not_inRange hout, error_bind])
  · exact raises_of_command hword hs (by
      simp only [exec, execEcc1, raiseIf_neg _ (Nat.not_lt.2 hgen), ok_bind,
        raiseIf_neg _ (Nat.not_lt.2 hraw), rangeCheck_ok hin,
        rangeCheck_error_of_not_inRange hout, error_bind])
  · obtain ⟨e, he⟩ := exists_ecc (s.memRead (s.unsignedX a) (s.unsignedX b)) (s.unsignedX c)
    refine ⟨e, he, ecc_length he, ?_⟩
    simp only [exec, execEcc1, raiseIf_neg _ (Nat.not_lt.2 hgen), ok_bind,
      raiseIf_neg _ (Nat.not_lt.2 hraw), rangeCheck_ok hin, rangeCheck_ok hout, he,
      command_ok _ hs]

/-- Settles O58: the checks let the table through, and the packed ECC is that of its blocks' runs. -/
theorem eccbStoresPackedEcc : Obligations.EccbStoresPackedEcc := by
  have hword : (encode .eccb).toNat = wordR 0x31 0 0 0 0 := rfl
  refine ⟨lowBitsZero_eccb, wordOf_of_encode rfl hword, fun s hs =>
    ⟨blockFaults_of_exec rfl hword hs, fun hpass => ?_⟩⟩
  obtain ⟨es, hlen, hes, hblock⟩ :=
    exists_eccBlocks (table s) (s.memRead s.dbase.toNat (dataBefore s (nblk s)))
  refine ⟨es, hlen.trans (table_length s), fun r hr => ?_, ?_⟩
  · have hrun : (runs ((table s).map RsBlock.data)
        (s.memRead s.dbase.toNat (dataBefore s (nblk s))))[r]? =
          some (s.memRead (s.dbase.toNat + dataBefore s r) (data s r)) := by
      rw [runs_table_data, List.getElem?_map, List.getElem?_range hr, Option.map_some]
    obtain ⟨e, he, hecc⟩ := hblock r _ _ (table_getElem? s hr) hrun
    exact ⟨e, he, ecc_length hecc, hecc⟩
  · simp only [exec, execEccb, checkedBlocks_ok hpass, ok_bind, State.getCsr, sumData_table, hes,
      command_ok _ hs]

/-- The stream of `ILV` in the words of the statement. -/
theorem ilvStream_table (s : State) : ilvStream s (table s) = interleave
    ((List.range (nblk s)).map fun r => s.memRead (s.dbase.toNat + dataBefore s r) (data s r))
    ((List.range (nblk s)).map fun r => s.memRead (s.ebase.toNat + ecBefore s r) (ec s r)) := by
  rw [ilvStream, sumData_table, sumEc_table, runs_table_data, runs_table_ec]
  rfl

/-- Settles O59: the checks of R136, then that of the output range. -/
theorem ilvStoresInterleavedStream : Obligations.IlvStoresInterleavedStream := by
  refine ⟨lowBitsZero_ilv, fun a => ?_⟩
  have hword : (encode (.ilv a)).toNat = wordR 0x32 a 0 0 0 :=
    toNat_formatR_xfields 0x32 a 0 0 0
  refine ⟨wordOf_of_encode rfl hword, fun s hs => ?_⟩
  have hexec (hpass : BlocksPass s) : exec (.ilv a) s = command (encode (.ilv a)) s (do
      rangeCheck s s.obase.toNat (dataBefore s (nblk s) + ecBefore s (nblk s))
      .ok ((s.memWrite s.obase.toNat (ilvStream s (table s))).setX a
        (wordOfNat (dataBefore s (nblk s) + ecBefore s (nblk s))))) := by
    rw [exec, execIlv, checkedBlocks_ok hpass, ok_bind, sumData_table, sumEc_table]
    rfl
  refine ⟨blockFaults_of_exec rfl hword hs, fun hpass hout => ?_, fun hpass hin => ?_⟩
  · exact raises_of_command hword hs (by
      rw [hexec hpass, rangeCheck_error_of_not_inRange hout, error_bind])
  · rw [hexec hpass, rangeCheck_ok hin, ok_bind, command_ok _ hs, ilvStream_table, wordOfNat]

end Sys2Proof.Claims
end

section
/-! Frames (R150, R163): what one write of a scalar register, a CSR or memory leaves unchanged, and
with it what the scalar, the storing and the system commands do. -/

namespace Sys2Proof.Machine

/-! A further write inside the frame stays inside it. -/

section
variable {s t : State} {xs : XReg → Prop} {ps : PReg → Prop} {cs : Csr → Prop} {ms : Nat → Prop}

theorem ChangesOnly.setX {i : XReg} (h : ChangesOnly s t (· = i) ps cs ms) (v : Word) :
    ChangesOnly s (t.setX i v) (· = i) ps cs ms where
  x j hj := (State.getX_setX_other _ _ _ _ hj).trans (h.x j hj)
  p := h.p
  rw c hc hn := (State.setX_getCsr ..).trans (h.rw c hc hn)
  fault hf c hc := (State.setX_getCsr ..).trans (h.fault hf c hc)
  mem := h.mem
  params := h.params
  epoch := h.epoch
  inbox := h.inbox

theorem ChangesOnly.memWrite (h : ChangesOnly s t xs ps cs ms) {addr : Nat} {bs : List Byte}
    (hbs : ∀ m, addr ≤ m ∧ m < addr + bs.length → ms m) :
    ChangesOnly s (t.memWrite addr bs) xs ps cs ms where
  x := h.x
  p := h.p
  rw c hc hn := (State.memWrite_getCsr ..).trans (h.rw c hc hn)
  fault hf c hc := (State.memWrite_getCsr ..).trans (h.fault hf c hc)
  mem m hm := by rw [State.readByte_memWrite, if_neg (mt (hbs m) hm), h.mem m hm]
  params := h.params
  epoch := h.epoch
  inbox := h.inbox

end

/-- A write of a CSR changes that CSR alone, and no fault register. -/
theorem setCsr_changesOnly (s : State) (q : Csr) (v : Word) :
    ChangesOnly s (s.setCsr q v) Claims.nothing Claims.nothing (· = q) Claims.nothing where
  x j _ := State.setCsr_getX s j v q
  p k _ := State.setCsr_getP s k v q
  rw c _ hne := by rw [State.getCsr_setCsr, if_neg fun h => hne h.1.symm]
  fault _ c hc := by
    rw [State.getCsr_setCsr, if_neg]
    rintro ⟨rfl, hq⟩
    rw [hc] at hq
    cases hq
  mem m _ := State.setCsr_readByte s v m q
  params := State.setCsr_params s v q
  epoch := State.setCsr_epoch s v q
  inbox := State.setCsr_inbox s v q

/-- A command that completes by writing one scalar register changes that register alone. -/
theorem exec_setX_changesOnly {s t : State} {i : Instr} {a : XReg} (h : exec i s = .next t)
    (hdone : Done i s t → ∃ v, t = s.setX a v) :
    ChangesOnly s t (· = a) Claims.nothing Claims.nothing Claims.nothing :=
  exec_changesOnly h fun hd => by
    obtain ⟨v, rfl⟩ := hdone hd
    exact .setX (changesOnly_refl ..) v

/-- A command that completes by storing `n` bytes at `addr` changes those bytes alone. -/
theorem exec_memWrite_changesOnly {s t : State} {i : Instr} {addr n : Nat} (h : exec i s = .next t)
    (hdone : Done i s t → ∃ bs : List Byte, bs.length = n ∧ t = s.memWrite addr bs) :
    ChangesOnly s t Claims.nothing Claims.nothing Claims.nothing
      (fun m => addr ≤ m ∧ m < addr + n) :=
  exec_changesOnly h fun hd => by
    obtain ⟨bs, rfl, rfl⟩ := hdone hd
    exact .memWrite (changesOnly_refl ..) fun _ hm => hm

/-- `NOP` completes and is discarded with the same answer. -/
theorem exec_nop (s : State) : exec .nop s = .next s := by
  cases hs : s.faulted with
  | true => exact command_discard (w := encode .nop) (.ok s) hs
  | false => exact command_ok (w := encode .nop) s hs

end Sys2Proof.Machine

namespace Sys2Proof.Claims

open Sys2Proof.Machine

/-- The blocks that pass the checks of R136 are those of the table. -/
theorem eq_table_of_checkedBlocks {s : State} {blocks : List RsBlock}
    (h : checkedBlocks s = .ok blocks) : blocks = table s := (checkedBlocks_ok_iff.1 h).2.1

/-- Settles O22: each of the nine commands, when it completes, has written `x[a]`. -/
theorem scalarCommandsChangeOnlyTheirDestination :
    Obligations.ScalarCommandsChangeOnlyTheirDestination := by
  intro s t a b c imm csr k
  refine ⟨fun h => exec_setX_changesOnly h ?li, fun h => exec_setX_changesOnly h ?ldb,
    fun h => exec_setX_changesOnly h ?csrr, fun h => exec_setX_changesOnly h ?gexp,
    fun h => exec_setX_changesOnly h ?glog, fun h => exec_setX_changesOnly h ?gadd,
    fun h => exec_setX_changesOnly h ?gmul, fun h => exec_setX_changesOnly h ?plen,
    fun h => exec_setX_changesOnly h ?pidx⟩
  case li | csrr | gexp | plen => exact fun hd => ⟨_, hd⟩
  case ldb => exact fun ⟨_, hd⟩ => ⟨_, hd⟩
  case glog | gadd | gmul => exact fun ⟨_, _, _, _, hd⟩ => ⟨_, hd⟩
  case pidx => exact fun ⟨_, _, hd⟩ => ⟨_, hd⟩

/-- Settles O24: each of the five commands, when it completes, has stored as many bytes as the
statement says, and `ILV` has then written its count. -/
theorem storingCommandsChangeOnlyTheirBytes : Obligations.StoringCommandsChangeOnlyTheirBytes := by
  intro s t a b c d k
  refine ⟨fun h => exec_changesOnly h ?stb, fun h => exec_memWrite_changesOnly h ?pst,
    fun h => exec_memWrite_changesOnly h ?ecc1, fun h => exec_memWrite_changesOnly h ?eccb,
    fun h => exec_changesOnly h ?ilv⟩
  case stb =>
    rintro ⟨-, rfl⟩
    exact memWrite_byte_changesOnly s _ _
  case pst => exact fun ⟨_, hd⟩ => ⟨_, rfl, hd⟩
  case ecc1 => exact fun ⟨_, _, _, _, e, he, hd⟩ => ⟨e, ecc_length he, hd⟩
  case eccb =>
    rintro ⟨blocks, out, hblocks, hout, hd⟩
    refine ⟨out, ?_, hd⟩
    rw [eccBlocks_length hout, eq_table_of_checkedBlocks hblocks, sumEc_table]
  case ilv =>
    rintro ⟨blocks, hblocks, -, rfl⟩
    refine .setX (.memWrite (changesOnly_refl ..) fun m hm => ?_) _
    rwa [ilvStream_length, eq_table_of_checkedBlocks hblocks, sumData_table, sumEc_table] at hm

/-- Settles O25: `NOP` answers the state itself, and `CSRW`, when it completes, has written the CSR
it names. -/
theorem nopAndCsrwChangeOnlyTheirDestination :
    Obligations.NopAndCsrwChangeOnlyTheirDestination := by
  intro s t a csr
  refine ⟨fun h => ?_, fun h => exec_changesOnly h ?_⟩
  · rw [exec_nop] at h
    cases h
    rfl
  · rintro ⟨-, rfl⟩
    exact setCsr_changesOnly s csr _

end Sys2Proof.Claims
end

section
/-! The scalar and system commands (R151 to R156): their words, their checks and their results. -/

namespace Sys2Proof.Claims

open Sys2Proof.Machine

/-! The words (R72, R77). -/

/-- The word of a format I command, by its number. -/
theorem toNat_formatI_xfield (op : BitVec 8) (a : XReg) (imm : BitVec 16) :
    (formatI op (xfield a) imm).toNat = wordI op.toNat a imm.toNat := by
  simp only [toNat_formatI, toNat_xfield, wordI, Nat.reducePow]

theorem csrNo_eq (c : Csr) : csrNo c = c.number.toNat := by cases c <;> rfl

theorem lowBitsZero_nop : LowBitsZero 0x00 24 := by
  intro w hw hlow
  obtain ⟨hillegal, hraise⟩ := illegalWordsAreTheFiveItems w
  exact hraise (hillegal.2 (.inr (.inl ⟨by simp [hw], hlow⟩)))

/-- The commands of format I (R77 item 3). -/
theorem zbZero_of_formatI {op : Nat} (hop : op ∈ [0x01, 0x04, 0x05]) : ZbZero op := by
  intro w hw hzb
  obtain ⟨hillegal, hraise⟩ := illegalWordsAreTheFiveItems w
  exact hraise (hillegal.2 (.inr (.inr (.inr (.inr (.inr (.inr (.inl ⟨hw ▸ hop, hzb⟩))))))))

/-- `CSRR` of a number that is no CSR (R77 item 5). -/
theorem malformed_csrr {w : Word} (hw : opOf w = 0x04) (hcsr : 8 < w.toNat % 2 ^ 16) :
    Malformed w := by
  obtain ⟨hillegal, hraise⟩ := illegalWordsAreTheFiveItems w
  exact hraise (hillegal.2 (.inr (.inr (.inr (.inr (.inr (.inr (.inr (.inr (.inr (.inr (.inl
    ⟨hw, hcsr⟩))))))))))))

/-- `CSRW` of a number that is no read-write CSR (R77 item 5). -/
theorem malformed_csrw {w : Word} (hw : opOf w = 0x05)
    (hcsr : w.toNat % 2 ^ 16 < 4 ∨ 8 < w.toNat % 2 ^ 16) : Malformed w := by
  obtain ⟨hillegal, hraise⟩ := illegalWordsAreTheFiveItems w
  exact hraise (hillegal.2 (.inr (.inr (.inr (.inr (.inr (.inr (.inr (.inr (.inr (.inr (.inr
    ⟨hw, hcsr⟩))))))))))))

/-! Operands and results. -/

theorem inRange_one_iff {s : State} {addr : Nat} : InRange s addr 1 ↔ addr < s.params.msize := by
  rw [InRange, or_iff_right Nat.one_ne_zero, Nat.add_one_le_iff]

theorem lowByte_eq_ofNat (s : State) (i : XReg) :
    s.lowByte i = BitVec.ofNat 8 (s.getX i).toNat := rfl

/-- Outside the FAULT state a read-only CSR holds 0 (R27 to R30). -/
theorem getCsr_eq_zero {s : State} (hs : s.faulted = false) (hok : s.faultRegsOk) {c : Csr}
    (hc : c.writable = false) : s.getCsr c = 0 := by
  rw [State.faultRegsOk, hs, if_neg Bool.false_ne_true] at hok
  obtain ⟨hstatus, hcause, hfinfo, hfcmd⟩ := hok
  cases c with
  | status => exact hstatus
  | cause => exact hcause
  | finfo => exact hfinfo
  | fcmd => exact hfcmd
  | tbase | nblk | dbase | ebase | obase => cases hc

/-! The commands. -/

/-- Settles O26: the command has no check and no effect. -/
theorem nopDoesNothing : Obligations.NopDoesNothing :=
  ⟨wordOf_of_encode rfl rfl, lowBitsZero_nop, exec_nop⟩

/-- Settles O27: the command has no check. -/
theorem liWritesSignExtendedImmediate : Obligations.LiWritesSignExtendedImmediate :=
  ⟨zbZero_of_formatI (by decide), fun a imm =>
    ⟨wordOf_of_encode rfl (toNat_formatI_xfield 0x01 a imm), fun _ hs =>
      command_ok (w := encode (.li a imm)) _ hs⟩⟩

/-- Settles O28, by the range check of one byte. -/
theorem ldbLoadsZeroExtendedByte : Obligations.LdbLoadsZeroExtendedByte := by
  refine ⟨lowBitsZero_two_fields (by decide), fun a b => ?_⟩
  have hword : (encode (.ldb a b)).toNat = wordR 0x02 a b 0 0 :=
    toNat_formatR_xfields 0x02 a b 0 0
  refine ⟨wordOf_of_encode rfl hword, fun s hs => ?_⟩
  simp only [State.toNat_getX, ← inRange_one_iff, ← Nat.not_lt (a := State.unsignedX s b)]
  refine ⟨fun hout => ?_, fun hin => ?_⟩
  · exact raises_of_command hword hs (by
      simp only [exec, execLdb, rangeCheck_error_of_not_inRange hout, error_bind])
  · simp only [exec, execLdb, rangeCheck_ok hin, ok_bind, command_ok _ hs, zext8_eq_ofNat]

/-- Settles O29, by the range check of one byte. -/
theorem stbStoresLowByte : Obligations.StbStoresLowByte := by
  refine ⟨lowBitsZero_two_fields (by decide), fun a b => ?_⟩
  have hword : (encode (.stb a b)).toNat = wordR 0x03 a b 0 0 :=
    toNat_formatR_xfields 0x03 a b 0 0
  refine ⟨wordOf_of_encode rfl hword, fun s hs => ?_⟩
  rw [← lowByte_eq_ofNat]
  simp only [State.toNat_getX, ← inRange_one_iff, ← Nat.not_lt (a := State.unsignedX s b)]
  refine ⟨fun hout => ?_, fun hin => ?_⟩
  · exact raises_of_command hword hs (by
      simp only [exec, execStb, rangeCheck_error_of_not_inRange hout, error_bind])
  · simp only [exec, execStb, rangeCheck_ok hin, ok_bind, command_ok _ hs]

/-- Settles O30: the command has no check, and outside the FAULT state a read-only CSR holds 0. -/
theorem csrrReadsCsr : Obligations.CsrrReadsCsr := by
  refine ⟨zbZero_of_formatI (by decide), fun _ => malformed_csrr, fun a c => ?_⟩
  have hword : (encode (.csrr a c)).toNat = wordI 0x04 a (csrNo c) :=
    csrNo_eq c ▸ toNat_formatI_xfield 0x04 a c.number
  refine ⟨wordOf_of_encode rfl hword, fun s hs => ?_⟩
  have hexec : exec (.csrr a c) s = .next (s.setX a (s.getCsr c)) :=
    command_ok (w := encode (.csrr a c)) _ hs
  exact ⟨hexec, fun hok hc => getCsr_eq_zero hs hok hc ▸ hexec⟩

/-- Settles O31: the one check is that of the access column of R26. -/
theorem csrwWritesReadWriteCsr : Obligations.CsrwWritesReadWriteCsr := by
  refine ⟨zbZero_of_formatI (by decide), fun _ => malformed_csrw, fun a c => ?_⟩
  have hword : (encode (.csrw a c)).toNat = wordI 0x05 a (csrNo c) :=
    csrNo_eq c ▸ toNat_formatI_xfield 0x05 a c.number
  refine ⟨csrNo_eq c ▸ c.writable_iff, fun hc => wordOf_of_encode hc hword, fun s hs =>
    ⟨fun hc => ?_, fun hc => ?_⟩⟩
  · have hwritable : ¬ c.writable = false := by rw [hc]; decide
    simp only [exec, execCsrw, raiseIf_neg _ hwritable, ok_bind, command_ok _ hs]
  · exact raises_of_command hword hs (by
      simp only [exec, execCsrw, raiseIf_pos _ hc, error_bind])

end Sys2Proof.Claims
end

section
/-! Faults (R163 to R167): what fault entry writes, that a fault is precise, and that `rst` alone leaves
the FAULT state. -/

namespace Sys2Proof.Machine

/-- Setting `FAULT` keeps the other bits of `STATUS` (R163). -/
theorem getLsbD_setFaultBit_other (status : Word) {k : Nat} (hk : 1 ≤ k) :
    (setFaultBit status).getLsbD k = status.getLsbD k := by
  have hbit : (1 : Word).getLsbD k = false := by
    simp [BitVec.getLsbD_one, Nat.ne_of_gt hk]
  rw [setFaultBit, BitVec.getLsbD_or, hbit, Bool.or_false]

/-- A completed command neither sets nor clears `FAULT`. -/
theorem done_faulted {i : Instr} {s t : State} (h : Done i s t) : t.faulted = s.faulted := by
  obtain ⟨x, mem, rfl⟩ | ⟨a, q, -, rfl⟩ | ⟨k, c, -, rfl⟩ := done_writes h
  · rfl
  · exact State.setCsr_faulted ..
  · exact State.setP_faulted ..

/-- In the FAULT state every command word, legal or not, is discarded (R165). -/
theorem acceptCommand_discard (w : Word) {s : State} (hs : s.faulted = true) :
    acceptCommand w s = .next s := by
  cases hdec : decode w with
  | ok i =>
    obtain ⟨e, he⟩ := exec_is_command i s
    rw [acceptCommand_legal hdec, he, command_discard e hs]
  | error e =>
    rw [acceptCommand_illegal hdec]
    exact command_discard _ hs

end Sys2Proof.Machine

namespace Sys2Proof.Claims

open Sys2Proof.Machine

/-- Settles O13, register by register: only the bits of `STATUS` and the read-write CSRs are more than
the fields of the record that fault entry writes. -/
theorem faultEntryWritesFaultRegisters : Obligations.FaultEntryWritesFaultRegisters := by
  intro s c info w t
  have hstatus : ∀ k, 1 ≤ k → t.status.getLsbD k = s.status.getLsbD k :=
    fun _ => getLsbD_setFaultBit_other s.status
  have hrw : ∀ r : Csr, r.writable = true → t.getCsr r = s.getCsr r :=
    fun _ => State.enterFault_getCsr s ⟨c, info⟩ w
  exact ⟨State.enterFault_faulted s ⟨c, info⟩ w, rfl, BitVec.toNat_ofNat info 32, rfl, hstatus, rfl,
    fun _ => rfl, fun _ => rfl, hrw, fun _ => rfl⟩

/-- Settles O14: a command that completes leaves `FAULT` as it was, so one that sets it has gone
through fault entry, with its own word. -/
theorem faultsArePrecise : Obligations.FaultsArePrecise := by
  intro i s t hwf hs hexec ht
  obtain ⟨hs', -⟩ | ⟨-, ⟨r, rfl⟩ | hdone⟩ := exec_cases hexec
  · cases hs.symm.trans hs'
  · exact ⟨⟨r.cause, r.info, rfl⟩, decode_encode hwf, enterFault_changesOnly _ _ _ _ _ hs r _⟩
  · cases hs.symm.trans ((done_faulted hdone).symm.trans ht)

/-- Settles O15: of what a step can do in the FAULT state, only `rst` does more than take the event off
the inbox or write the host's byte. -/
theorem faultStateIsLeftByResetOnly : Obligations.FaultStateIsLeftByResetOnly := by
  intro s e rest hs hin
  refine ⟨?_, fun t hstep he => ?_⟩
  · rintro w rfl
    exact (step_event hin).trans (acceptCommand_discard w hs)
  · cases step_effect hstep with
    | held rest' eq =>
      subst eq
      exact ⟨hs, fun _ => rfl, fun _ => rfl, State.getCsr_with s s.x s.mem rest'⟩
    | hostWrote rest' addr b inside eq =>
      subst eq
      exact ⟨hs, fun _ => rfl, fun _ => rfl, State.getCsr_with s s.x _ rest'⟩
    | wasReset e' rest' pending isReset eq =>
      obtain ⟨rfl, -⟩ := List.cons.inj (hin.symm.trans pending)
      cases he.symm.trans isReset
    | faulted rest' r w before eq => cases hs.symm.trans before
    | completed rest' w i before pending legal done => cases hs.symm.trans before

end Sys2Proof.Claims
end

section
/-! Reset and completion (R180 to R182, R190): `rst` gives the reset state from every state, and every
command answers a next state. -/

namespace Sys2Proof.Machine

/-- `rst` is one operation, whether it comes between commands (R180) or during one (R182). -/
theorem acceptEvent_of_isReset {e : HostEvent} (he : e.isReset = true) (s : State) :
    acceptEvent e s = .next s.afterReset := by
  cases e with
  | reset | resetDuring _ => rfl
  | command _ | memWrite _ _ | memRead _ | observe => cases he

end Sys2Proof.Machine

namespace Sys2Proof.Claims

open Sys2Proof.Machine

/-- Settles O7: every command goes through the one wrapper `command`, which always answers a next
state. -/
theorem everyCommandTerminates : Obligations.EveryCommandTerminates := by
  intro i s
  obtain ⟨e, he⟩ := exec_is_command i s
  rw [he]
  exact command_next (encode i) s e

/-- Settles O9: the step takes `rst` off the inbox and answers `afterReset`, whose laws say what each
part of the state holds. -/
theorem resetEventGivesResetState : Obligations.ResetEventGivesResetState := by
  intro s e rest hin he
  let s' : State := { s with inbox := rest }
  have hstep : step s = .next s'.afterReset :=
    (step_event hin).trans (acceptEvent_of_isReset he s')
  exact ⟨s'.afterReset, hstep, State.afterReset_getX s', State.afterReset_getP s',
    State.afterReset_getCsr s', State.afterReset_faulted s', memLookup_nil,
    State.afterReset_epoch s', State.afterReset_params s', State.afterReset_inbox s'⟩

end Sys2Proof.Claims
end
